-- ==== Sys2Proof/Word.lean ====
section
/-! DEFINITION. The word, the register index and the flag mask (spec/00_scope.md R10, R11; spec/10_state.md R20, R27). -/

namespace Sys2Proof

/-- R11: a word is a 32-bit quantity: every register, memory cell, address, operand and result.
`w.toNat` is the spec's `u(w)` and `w.toInt` its `s(w)`; bit 0 is the least significant bit (R10). -/
abbrev Word := BitVec 32

/-- R20: a register index is "4-bit unsigned (0-15)": every value names a register. -/
abbrev RegIdx := BitVec 4

/-- R27, R70: a set of the four flags M, Z, P, V, as the register `cc` and the `cond` field code it. -/
abbrev FlagMask := BitVec 4

/-- R11: `wrap(n)`, the word `n mod 2^32` of any integer. -/
def wrap (n : Int) : Word := BitVec.ofInt 32 n

/-- R24: register 15 is the program counter. -/
def pcIdx : RegIdx := 15#4

end Sys2Proof
end

