-- ==== Sys2Proof/Config.lean ====
section
/-! DEFINITION. The open parameters of a Duck Machine (spec/00_scope.md R5) and the free value of a device read
(spec/93_implementation_defined.md U14). -/

namespace Sys2Proof

/-- R5: the parameters the spec leaves open, "the model takes it as an argument". They stand in `State.cfg`, which no
step changes, so a statement about every state is a statement about every choice of them (assumption 3). -/
structure Params where
  /-- `MEM_WORDS`: valid addresses are 0 to `memWords - 1` (R41). -/
  memWords : Nat
  /-- `MMIO_LO`, the first address of the I/O window (R44). -/
  mmioLo : Nat
  /-- `MMIO_HI`, the last address of the I/O window; below `mmioLo` the window is empty (U13). -/
  mmioHi : Nat
  /-- `ALU_EXT`: whether opcodes 8 to 13 exist (R73). -/
  aluExt : Bool
deriving DecidableEq, Repr

/-- R5: the constraints on the parameters, `1 <= MEM_WORDS <= 2^32` and `MMIO_LO <= MMIO_HI < MEM_WORDS` or an empty
window. -/
def Params.wf (p : Params) : Bool :=
  decide (1 ≤ p.memWords) && decide (p.memWords ≤ 2 ^ 32) &&
    (decide (p.mmioHi < p.mmioLo) || decide (p.mmioHi < p.memWords))

/-- R5: the defaults the spec's examples use. -/
def Config.defaults : Params := { memWords := 1024, mmioLo := 510, mmioHi := 511, aluExt := true }

/-- DESIGN CHOICE (assumption 4). The word the device answers to its `n`-th read when the run's list of device words
(`State.deviceIn`) is used up: R8 and U14 let any word come back, so it has no value a proof could use. -/
opaque Config.deviceWord : Nat → Word

end Sys2Proof
end

