-- ==== Sys2Proof/Syntax.lean ====
section
/-! DEFINITION. Instructions as data (spec/30_encoding.md R66, R67, R72): one format, thirteen opcodes. -/

namespace Sys2Proof

/-- R72: the closed opcode enumeration. -/
inductive Opcode where
  | halt | load | store | add | sub | mul | div
  | and | or | xor | shl | shr | asr
deriving DecidableEq, Repr

/-- R73: the opcodes of the ALU extension, present only when `ALU_EXT` is true. -/
def Opcode.isExt : Opcode → Bool
  | .halt => false
  | .load => false
  | .store => false
  | .add => false
  | .sub => false
  | .mul => false
  | .div => false
  | .and => true
  | .or => true
  | .xor => true
  | .shl => true
  | .shr => true
  | .asr => true

/-- R66, R67: the five fields every instruction has beside its opcode. -/
structure Fields where
  /-- The condition mask (R70). -/
  cond : FlagMask
  /-- The register written (for STORE: the register whose value is stored; for HALT: unused), R23. -/
  target : RegIdx
  /-- The register read as ALU operand 1 (R68). -/
  src1 : RegIdx
  /-- The register added to the offset to form ALU operand 2 (R68). -/
  src2 : RegIdx
  /-- The signed offset; the format holds -512 to 511 (R69), which `WellFormed` checks. -/
  offset : Int
deriving DecidableEq, Repr

/-- R67: the Instruction record, one constructor per row of the opcode table. -/
inductive Instr where
  | halt (f : Fields)
  | load (f : Fields)
  | store (f : Fields)
  | add (f : Fields)
  | sub (f : Fields)
  | mul (f : Fields)
  | div (f : Fields)
  | and (f : Fields)
  | or (f : Fields)
  | xor (f : Fields)
  | shl (f : Fields)
  | shr (f : Fields)
  | asr (f : Fields)
deriving DecidableEq, Repr

/-- The record's `op` (R67). -/
def Instr.op : Instr → Opcode
  | .halt _ => .halt
  | .load _ => .load
  | .store _ => .store
  | .add _ => .add
  | .sub _ => .sub
  | .mul _ => .mul
  | .div _ => .div
  | .and _ => .and
  | .or _ => .or
  | .xor _ => .xor
  | .shl _ => .shl
  | .shr _ => .shr
  | .asr _ => .asr

/-- The record's other five fields (R67). -/
def Instr.fields : Instr → Fields
  | .halt f => f
  | .load f => f
  | .store f => f
  | .add f => f
  | .sub f => f
  | .mul f => f
  | .div f => f
  | .and f => f
  | .or f => f
  | .xor f => f
  | .shl f => f
  | .shr f => f
  | .asr f => f

/-- The instruction with a given opcode and fields (R67: "direct construction from assembler fields"). -/
def Instr.make (op : Opcode) (f : Fields) : Instr :=
  match op with
  | .halt => .halt f
  | .load => .load f
  | .store => .store f
  | .add => .add f
  | .sub => .sub f
  | .mul => .mul f
  | .div => .div f
  | .and => .and f
  | .or => .or f
  | .xor => .xor f
  | .shl => .shl f
  | .shr => .shr f
  | .asr => .asr f

end Sys2Proof
end

