-- ==== Sys2Proof/WellFormed.lean ====
section
/-! DEFINITION. The representable instructions (spec/30_encoding.md R67, R73, R78). -/

namespace Sys2Proof

/-- R69: the offset field holds -512 to 511. -/
def Fields.offsetFits (f : Fields) : Bool := decide (-512 ≤ f.offset) && decide (f.offset ≤ 511)

/-- R73: with `ALU_EXT = false` the six extension opcodes are unassigned. -/
def Opcode.assigned (ext : Bool) (op : Opcode) : Bool := ext || !op.isExt

/-- R78 (a): the representable records under a setting of `ALU_EXT`: an assigned opcode and an offset that fits. The
mask and the register indices fit by their type (assumption 12). -/
def Instr.wellFormed (ext : Bool) (i : Instr) : Bool := i.op.assigned ext && i.fields.offsetFits

end Sys2Proof
end

