-- ==== Sys2Proof/Decode.lean ====
section
/-! DEFINITION. The decoder block (spec/30_encoding.md): the BitField primitive, the format, the opcode map, decode and
encode. -/

namespace Sys2Proof

/-- R60: a bit range of a 32-bit word, `lo` its `from_bit` and `hi` its `to_bit`. -/
structure BitField where
  lo : Nat
  hi : Nat
deriving DecidableEq, Repr

/-- R60: "with from_bit <= to_bit, both in [0,31]". -/
def BitField.valid (F : BitField) : Bool := decide (F.lo ≤ F.hi) && decide (F.hi ≤ 31)

/-- R60: the number of bits. -/
def BitField.width (F : BitField) : Nat := F.hi - F.lo + 1

/-- R60: `width` ones, right-justified. -/
def BitField.mask (F : BitField) : Word := BitVec.ofNat 32 (2 ^ F.width - 1)

/-- R60: the same ones at the field's position. -/
def BitField.pmask (F : BitField) : Word := F.mask <<< F.lo

/-- R61: the word with the field replaced by the value's low `width` bits; the rest of the value is dropped silently and
a negative value counts as its two's complement. -/
def BitField.insert (F : BitField) (value : Int) (word : Word) : Word :=
  (word &&& ~~~F.pmask) ||| ((wrap value &&& F.mask) <<< F.lo)

/-- R62: the right-justified field content. -/
def BitField.extract (F : BitField) (word : Word) : Nat := ((word >>> F.lo) &&& F.mask).toNat

/-- R63, R64 (c): the two's-complement reading of a field value over `width` bits. -/
def signExtend (f width : Nat) : Int := if f < 2 ^ (width - 1) then (f : Int) else (f : Int) - 2 ^ width

/-- R63: the field content read as two's complement. `none` is the PreconditionViolation of R154, a width below 2, which
no field of the format has. -/
def BitField.extractSigned (F : BitField) (word : Word) : Option Int :=
  if F.width < 2 then none else some (signExtend (F.extract word) F.width)

/-- R66: the six fields of the one format. -/
def opField : BitField := { lo := 26, hi := 31 }
/-- R66. -/
def condField : BitField := { lo := 22, hi := 25 }
/-- R66. -/
def targetField : BitField := { lo := 18, hi := 21 }
/-- R66. -/
def src1Field : BitField := { lo := 14, hi := 17 }
/-- R66. -/
def src2Field : BitField := { lo := 10, hi := 13 }
/-- R66. -/
def offsetField : BitField := { lo := 0, hi := 9 }

/-- R72: the number of each opcode. -/
def Opcode.number : Opcode → Nat
  | .halt => 0
  | .load => 1
  | .store => 2
  | .add => 3
  | .sub => 5
  | .mul => 6
  | .div => 7
  | .and => 8
  | .or => 9
  | .xor => 10
  | .shl => 11
  | .shr => 12
  | .asr => 13

/-- R72: the opcode lookup table; 4 and everything from 14 up are unassigned. -/
def Opcode.ofNumber? : Nat → Option Opcode
  | 0 => some .halt
  | 1 => some .load
  | 2 => some .store
  | 3 => some .add
  | 5 => some .sub
  | 6 => some .mul
  | 7 => some .div
  | 8 => some .and
  | 9 => some .or
  | 10 => some .xor
  | 11 => some .shl
  | 12 => some .shr
  | 13 => some .asr
  | _ => none

/-- R72, R73: the opcode a number is assigned to under a setting of `ALU_EXT`. -/
def Opcode.lookup (ext : Bool) (n : Nat) : Option Opcode :=
  match Opcode.ofNumber? n with
  | none => none
  | some op => if op.assigned ext then some op else none

/-- R75, R150 E1: why decoding a word fails. -/
inductive DecodeError where
  /-- The `op` field, here `op`, is not an assigned opcode number. -/
  | unassignedOpcode (word : Word) (op : Nat)
deriving DecidableEq, Repr

/-- R74: the five fields beside the opcode, extracted for every opcode alike. -/
def decodeFields (w : Word) : Fields :=
  { cond := BitVec.ofNat 4 (condField.extract w)
    target := BitVec.ofNat 4 (targetField.extract w)
    src1 := BitVec.ofNat 4 (src1Field.extract w)
    src2 := BitVec.ofNat 4 (src2Field.extract w)
    offset := signExtend (offsetField.extract w) offsetField.width }

/-- R74: decode, total on words: an instruction, or the word refused by name. -/
def decode (ext : Bool) (w : Word) : Except DecodeError Instr :=
  match Opcode.lookup ext (opField.extract w) with
  | none => .error (.unassignedOpcode w (opField.extract w))
  | some op => .ok (Instr.make op (decodeFields w))

/-- R77: the six fields inserted into a word that starts at 0, each value cut to its field's low bits, whatever its
size: what `encode` does with assembler fields that need not fit. -/
def encodeRaw (op cond target src1 src2 offset : Int) : Word :=
  offsetField.insert offset (src2Field.insert src2 (src1Field.insert src1
    (targetField.insert target (condField.insert cond (opField.insert op 0#32)))))

/-- R77: encode; it never fails, and an offset that does not fit is truncated. -/
def encode (i : Instr) : Word :=
  encodeRaw i.op.number i.fields.cond.toNat i.fields.target.toNat i.fields.src1.toNat i.fields.src2.toNat
    i.fields.offset

/-- The word whose low `nbits` bits are those of `w` and whose other bits are 0. An instruction is one memory word
(R65) and a word has no byte order (R47), so the opcode table's bit numbers are the word's own. -/
def tableWord (nbits w : Nat) : Word := BitVec.ofNat 32 (w % 2 ^ nbits)

/-- The instruction the decoder reads from the opcode table's bits, at the default `ALU_EXT`. -/
def decodeTableWord (nbits w : Nat) : Option Instr :=
  match decode Config.defaults.aluExt (tableWord nbits w) with
  | .ok i => some i
  | .error _ => none

end Sys2Proof
end

