-- ==== Sys2Proof/Machine/State.lean ====
section
/-! DEFINITION. The machine's state (spec/10_state.md section 1), the ways a step can stop (spec/60_exceptions.md R150) and the
state after reset (spec/70_reset_and_hazards.md R170). -/

namespace Sys2Proof.Machine

/-- R30: the two states of the CPU; Halted is terminal for stepping. -/
inductive RunState where
  | running
  | halted
deriving DecidableEq, Repr

/-- R33, R42: memory, as the list of its cells that hold something other than what an unlisted address reads as:
`(word address, word)`, addresses strictly rising (`Memory.wf`). The cell is the spec's addressable unit, the 32-bit
word, not a byte (assumption 1). -/
abbrev Memory := List (Nat × Word)

/-- R8, R50: one access that reached the device behind the I/O window. -/
inductive DeviceAccess where
  /-- `Device.read(addr)`, answered with `value`. -/
  | read (addr value : Word)
  /-- `Device.write(addr, value)`: an output event. -/
  | write (addr value : Word)
deriving DecidableEq, Repr

/-- R9, R93: one observation event. Its subject, the CPU, is left out: there is one (R167). -/
structure Event where
  /-- The program counter at the fetch. -/
  addr : Word
  /-- The raw word fetched. -/
  word : Word
  /-- What it decodes to. -/
  instr : Instr
deriving DecidableEq, Repr

/-- All the machine's state, and beside it the model's own fields for what crosses the machine's edge. -/
structure State where
  /-- R20: `x[0]` to `x[15]`; `x[15]` is the program counter (R24). Slot 0 is never read or written (R22). -/
  regs : Vector Word 16
  /-- R27: the condition flags. -/
  cc : FlagMask
  /-- R30: Running or Halted. -/
  runState : RunState
  /-- R33: the plain memory cells. -/
  mem : Memory
  /-- R5, R36: the parameters of this machine; no step changes them (assumption 3). -/
  cfg : Params
  /-- R36: the words the device will answer to the reads to come, an input of the run (assumption 4). -/
  deviceIn : List Word
  /-- How many device reads have been made: what the free value `Config.deviceWord` is applied to (assumption 4). -/
  draws : Nat
  /-- R8, R36, U14, U15: the accesses that reached the device, oldest first (assumption 8). -/
  deviceLog : List DeviceAccess
  /-- R9, R36: the observation events emitted, oldest first (assumption 8). -/
  events : List Event
deriving DecidableEq, Repr

/-- R150: which of the three kinds of access an address fault comes from. -/
inductive Access where
  | fetch
  | load
  | store
deriving DecidableEq, Repr

/-- R150, R158: the fatal errors a step can end in. A fault is an outcome of the step, neither Running nor Halted; the
machine is not resumed from it (R161). Each carries the information of R150 and, last, the state the failing step
leaves behind (R159), from which the host may inspect the machine or start a new run (assumption 6). -/
inductive Fault where
  /-- E1, raised by the DECODE phase of `step` when the fetched word's `op` field is unassigned (R151). Safe: the spec
  says this word stops the machine. -/
  | decodeError (word : Word) (op : Nat) (fetchAddr : Word) (left : State)
  /-- E3, raised by fetch, LOAD or STORE at an address `>= MEM_WORDS` (R153). Safe: the spec says this access stops the
  machine. -/
  | addressFault (addr : Word) (access : Access) (left : State)
deriving DecidableEq, Repr

/-- Why the model gives an instruction no meaning. -/
inductive Refusal where
  /-- An arm of `exec` with no meaning yet. Raised by none: every arm has its meaning. Safe: the model stops. -/
  | notModelled (mnemonic : String)
deriving DecidableEq, Repr

/-- What one instruction, or one step, ends in. -/
abbrev Result := Host.Outcome State Fault Refusal

/-- R170: the machine right after reset: every register 0 (so `pc` is 0), all four flags set, Running. Memory lists
nothing (R171: reset does not touch memory; the image is the host's, assumption 2), the parameters are the defaults
(assumption 3), and no device word or event has passed (assumptions 4 and 8). -/
def State.reset : State :=
  { regs := Vector.replicate 16 0#32
    cc := 15#4
    runState := .running
    mem := []
    cfg := Config.defaults
    deviceIn := []
    draws := 0
    deviceLog := []
    events := [] }

end Sys2Proof.Machine
end

