-- ==== Sys2Proof/Machine/Flags.lean ====
section
/-! DEFINITION. The flags (spec/10_state.md R27; spec/41_alu_arithmetic.md R111, R112). -/

namespace Sys2Proof.Machine

/-- R27: negative. -/
def flagM : FlagMask := 1#4
/-- R27: zero. -/
def flagZ : FlagMask := 2#4
/-- R27: positive. -/
def flagP : FlagMask := 4#4
/-- R27: overflow. -/
def flagV : FlagMask := 8#4
/-- R27: the mask that names every flag. -/
def maskAlways : FlagMask := 15#4
/-- R27: the mask that names none. -/
def maskNever : FlagMask := 0#4

/-- R111: `szp(r)`: Z for a zero word, M for one whose bit 31 is set, P for any other. -/
def szp (r : Word) : FlagMask :=
  if r = 0#32 then flagZ else if r.msb then flagM else flagP

/-- R111: `szp(r)`, with V beside it where an overflow condition holds. -/
def flagsOf (r : Word) (overflow : Bool) : FlagMask :=
  if overflow then szp r ||| flagV else szp r

/-- R112: the exact integer result lies outside -2^31 to 2^31 - 1. -/
def outOfRange (e : Int) : Bool := decide (e < -2 ^ 31) || decide (e > 2 ^ 31 - 1)

/-- R94: "(current_condition_flags & instruction.condition_mask)" is not 0. -/
def intersects (flags mask : FlagMask) : Bool := flags &&& mask != 0#4

end Sys2Proof.Machine
end

