-- ==== Sys2Proof/Machine/Alu.lean ====
section
/-! DEFINITION. The ALU block (spec/41_alu_arithmetic.md R110 to R117; spec/42_alu_logic_shift.md R120 to R126): a pure function from an
opcode and two words to a word and flags. -/

namespace Sys2Proof.Machine

/-- R114, R115, R116: an exact integer result, truncated to a word, with V where it does not fit. -/
def narrow (e : Int) : Word × FlagMask := (wrap e, flagsOf (wrap e) (outOfRange e))

/-- R120, R130, R140: a word with the flags of its sign and no V. -/
def plainResult (r : Word) : Word × FlagMask := (r, flagsOf r false)

/-- R114: `s(op1) + s(op2)`. -/
def aluAdd (a b : Word) : Word × FlagMask := narrow (a.toInt + b.toInt)

/-- R115: `s(op1) - s(op2)`. -/
def aluSub (a b : Word) : Word × FlagMask := narrow (a.toInt - b.toInt)

/-- R116: `s(op1) * s(op2)`, the low word kept. -/
def aluMul (a b : Word) : Word × FlagMask := narrow (a.toInt * b.toInt)

/-- R117: the signed quotient rounded toward minus infinity; a zero divisor gives 0 with V. -/
def aluDiv (a b : Word) : Word × FlagMask :=
  if b = 0#32 then (0#32, flagsOf 0#32 true) else narrow (Int.fdiv a.toInt b.toInt)

/-- R121. -/
def aluAnd (a b : Word) : Word × FlagMask := plainResult (a &&& b)

/-- R122. -/
def aluOr (a b : Word) : Word × FlagMask := plainResult (a ||| b)

/-- R123. -/
def aluXor (a b : Word) : Word × FlagMask := plainResult (a ^^^ b)

/-- R120: the shift amount, `op2[4:0]`. -/
def shiftAmount (b : Word) : Nat := b.toNat % 32

/-- R124: `wrap(u(op1) * 2^n)`. -/
def aluShl (a b : Word) : Word × FlagMask := plainResult (wrap (a.toNat * 2 ^ shiftAmount b))

/-- R125: `floor(u(op1) / 2^n)`. -/
def aluShr (a b : Word) : Word × FlagMask := plainResult (BitVec.ofNat 32 (a.toNat / 2 ^ shiftAmount b))

/-- R126: `wrap(floor(s(op1) / 2^n))`. -/
def aluAsr (a b : Word) : Word × FlagMask := plainResult (wrap (Int.fdiv a.toInt (2 ^ shiftAmount b)))

/-- R130: the address adder of LOAD and STORE, `wrap(op1 + op2)`; the sum sets no V (R112). -/
def aluAddress (a b : Word) : Word × FlagMask := plainResult (a + b)

/-- R140: HALT computes nothing: result 0, flags Z. -/
def aluHalt (_a _b : Word) : Word × FlagMask := plainResult 0#32

/-- R110: the ALU's function for each opcode. -/
def aluOp (op : Opcode) (a b : Word) : Word × FlagMask :=
  match op with
  | .halt => aluHalt a b
  | .load => aluAddress a b
  | .store => aluAddress a b
  | .add => aluAdd a b
  | .sub => aluSub a b
  | .mul => aluMul a b
  | .div => aluDiv a b
  | .and => aluAnd a b
  | .or => aluOr a b
  | .xor => aluXor a b
  | .shl => aluShl a b
  | .shr => aluShr a b
  | .asr => aluAsr a b

/-- R113, R150 E2: why the ALU block gives no result. -/
inductive AluError where
  /-- The opcode number is no member of the enumeration. -/
  | unknownOpcode (op : Nat)
deriving DecidableEq, Repr

/-- R110, R113: the ALU block alone, with its opcode input a bare number. No step reaches its error (R152): a step
passes an opcode that `decode` accepted (assumption 7). -/
def aluExec (ext : Bool) (n : Nat) (a b : Word) : Except AluError (Word × FlagMask) :=
  match Opcode.lookup ext n with
  | none => .error (.unknownOpcode n)
  | some op => .ok (aluOp op a b)

end Sys2Proof.Machine
end

