-- ==== Sys2Proof/Machine/Ops.lean ====
section
/-! DEFINITION. The named operations over registers, memory and the device, raising a fatal error, and the host's operations
that start the machine again (spec/10_state.md, spec/20_memory.md, spec/60_exceptions.md section 4, spec/70_reset_and_hazards.md). -/

namespace Sys2Proof.Machine

/-! ## Registers (R20 to R25) -/

/-- R22: a read of register `i`: 0 if `i = 0`, else the word held. -/
def State.readReg (s : State) (i : RegIdx) : Word :=
  if i = 0#4 then 0#32 else s.regs[i.toNat]'i.isLt

/-- R22: a write of `v` to register `i`: no effect if `i = 0`. -/
def State.writeReg (s : State) (i : RegIdx) (v : Word) : State :=
  { s with regs := if i = 0#4 then s.regs else s.regs.set i.toNat v i.isLt }

/-- R24: the program counter is register 15. -/
def State.pc (s : State) : Word := s.readReg pcIdx

/-- R25, R99: the advance by one word, `x[15] <- wrap(a + 1)`. -/
def State.advance (s : State) : State := s.writeReg pcIdx (s.pc + 1#32)

/-- R98: the condition flags become `flags`. -/
def State.setFlags (s : State) (flags : FlagMask) : State := { s with cc := flags }

/-- R100: the run state becomes `r`. -/
def State.setRun (s : State) (r : RunState) : State := { s with runState := r }

/-- R93: one observation event goes out. -/
def State.emit (s : State) (e : Event) : State := { s with events := s.events ++ [e] }

/-! ## Plain memory cells (R33, R42, R49) -/

/-- What an address no entry lists reads as. DESIGN CHOICE (assumption 2): 0, as R171 says of the reference machine. -/
def Memory.unlisted : Word := 0#32

/-- The word at an address. -/
def Memory.read : Memory → Nat → Word
  | [], _ => Memory.unlisted
  | (b, w) :: m, a => if a = b then w else Memory.read m a

/-- A new entry put in its place among rising addresses. -/
def Memory.place : Memory → Nat → Word → Memory
  | [], a, v => [(a, v)]
  | (b, w) :: m, a, v => if a < b then (a, v) :: (b, w) :: m else (b, w) :: Memory.place m a v

/-- R46: the cell at an address replaced whole. A word equal to `Memory.unlisted` leaves no entry, so that equal
memories are equal lists. -/
def Memory.write (m : Memory) (a : Nat) (v : Word) : Memory :=
  let rest := m.filter fun c => c.1 != a
  if v = Memory.unlisted then rest else Memory.place rest a v

/-- The entries after address `b` are strictly rising and none equals what an unlisted address reads as. -/
def Memory.wfAfter : Nat → Memory → Bool
  | _, [] => true
  | b, (a, v) :: m => decide (b < a) && v != Memory.unlisted && Memory.wfAfter a m

/-- The canonical form of memory. -/
def Memory.wf : Memory → Bool
  | [] => true
  | (a, v) :: m => v != Memory.unlisted && Memory.wfAfter a m

/-! ## The address map (R41, R44, R51) -/

/-- R41: the addresses that exist. -/
def validAddr (p : Params) (a : Word) : Bool := decide (a.toNat < p.memWords)

/-- R44: the addresses of the I/O window. -/
def inWindow (p : Params) (a : Word) : Bool := decide (p.mmioLo ≤ a.toNat) && decide (a.toNat ≤ p.mmioHi)

/-- R51: plain storage, everything valid outside the window. -/
def plainAddr (p : Params) (a : Word) : Bool := validAddr p a && !inWindow p a

/-! ## The device behind the window (R8, R50) -/

/-- U14: the word the device answers to the next read: the next of the run's device words, or a free value when they
are used up (assumption 4). -/
def State.deviceAnswer (s : State) : Word := s.deviceIn.headD (Config.deviceWord s.draws)

/-- R45: `Device.read(a)`: the answer, and the machine after the draw. -/
def State.deviceRead (s : State) (a : Word) : Word × State :=
  (s.deviceAnswer,
    { s with
      deviceIn := s.deviceIn.tail
      draws := s.draws + 1
      deviceLog := s.deviceLog ++ [.read a s.deviceAnswer] })

/-- R46, U15: `Device.write(a, v)`: one output event and no change of the machine. -/
def State.deviceWrite (s : State) (a v : Word) : State :=
  { s with deviceLog := s.deviceLog ++ [.write a v] }

/-! ## The two access primitives -/

/-- R45: `MemRead(a, 1)`; `none` where it raises AddressFault. -/
def State.memRead (s : State) (a : Word) : Option (Word × State) :=
  if !validAddr s.cfg a then none
  else if inWindow s.cfg a then some (s.deviceRead a)
  else some (s.mem.read a.toNat, s)

/-- R46: `MemWrite(a, 1, v)`; `none` where it raises AddressFault. -/
def State.memWrite (s : State) (a v : Word) : Option State :=
  if !validAddr s.cfg a then none
  else if inWindow s.cfg a then some (s.deviceWrite a v)
  else some { s with mem := s.mem.write a.toNat v }

/-! ## A fatal error, and what may follow it -/

/-- R158: a fatal error ends the step where it is raised. There is no handler, no saved register and no mode to change;
the fault keeps the state the step has made so far (R159), whose run state stays as it is. -/
def raise (error : State → Fault) (s : State) : Result := .fault (error s)

/-- R159: the state a fault leaves for the host. -/
def Fault.left : Fault → State
  | .decodeError _ _ _ s => s
  | .addressFault _ _ s => s

/-- R170, R171: the host operation `reset`: registers, flags and run state to their reset values; memory, the
parameters and what the device and the observers have seen stay. -/
def hostReset (s : State) : State :=
  { s with regs := Vector.replicate 16 0#32, cc := 15#4, runState := .running }

/-- R173: what `run(start_address)` does before its first step. With `hostReset` it is the only thing that may follow a
fault or a halt (R161). -/
def startRun (start : Word) (s : State) : State := (s.writeReg pcIdx start).setRun .running

/-- R174: the host's loader puts one word at an address before a run; an address that is no plain cell holds nothing
(R33, R44). -/
def loadWord (s : State) (a v : Word) : State :=
  if plainAddr s.cfg a then { s with mem := s.mem.write a.toNat v } else s

/-- R174: the host's loader puts the words of a program at an address and the ones that follow it. -/
def loadProgram (s : State) (base : Word) : List Word → State
  | [] => s
  | w :: ws => loadProgram (loadWord s base w) (base + 1#32) ws

/-! ## Where the next instruction comes from -/

/-- R91: the fetch, `MemRead` at the program counter. -/
def State.fetch (s : State) : Option (Word × State) := s.memRead s.pc

/-- The state whose next fetch gives `w`: Running, with `w` in the cell the program counter names, or as the device's
next answer where that address is in the I/O window. At an address that does not exist nothing can be placed
(assumption 10). -/
def placeNextWord (s : State) (w : Word) : State :=
  if validAddr s.cfg s.pc && inWindow s.cfg s.pc then { s.setRun .running with deviceIn := w :: s.deviceIn }
  else loadWord (s.setRun .running) s.pc w

end Sys2Proof.Machine
end

