-- ==== Sys2Proof/Machine/Operands.lean ====
section
/-! DEFINITION. The one operand form (spec/30_encoding.md R71; spec/40_execution_cycle.md R96, R101). -/

namespace Sys2Proof.Machine

/-- R69: `sext_32(offset) = wrap(offset)`, the offset widened to a word. -/
def offsetWord (f : Fields) : Word := wrap f.offset

/-- R96: ALU operand 1, `x[src1]`. Read before the advance, register 15 gives the instruction's own address (R101). -/
def operand1 (f : Fields) (s : State) : Word := s.readReg f.src1

/-- R96: ALU operand 2, `wrap(x[src2] + sext_32(offset))`, a plain addition that sets no flag. -/
def operand2 (f : Fields) (s : State) : Word := s.readReg f.src2 + offsetWord f

end Sys2Proof.Machine
end

