-- ==== Sys2Proof/Machine/Cycle.lean ====
section
/-! DEFINITION. The part of the step that every instruction shares after its decode (spec/40_execution_cycle.md R94 to R100). -/

namespace Sys2Proof.Machine

/-- R94: the instruction is executed when a flag its mask names is set. -/
def executes (f : Fields) (s : State) : Bool := intersects s.cc f.cond

/-- R94, R95: an executed instruction does `body`; a skipped one only advances. -/
def whenExecuted (f : Fields) (s : State) (body : Result) : Result :=
  if executes f s then body else .next s.advance

/-- R98, R99: the program counter advances and the flags are updated, after the ALU and before the dispatch. -/
def State.retire (s : State) (flags : FlagMask) : State := s.advance.setFlags flags

/-- R100, last row: an ALU instruction writes its result to the target register, after the advance (R102). -/
def execAlu (alu : Word → Word → Word × FlagMask) (f : Fields) (s : State) : Result :=
  whenExecuted f s
    (.next ((s.retire (alu (operand1 f s) (operand2 f s)).2).writeReg f.target
      (alu (operand1 f s) (operand2 f s)).1))

/-- R43, R130: the effective address of an executed LOAD or STORE. -/
def effectiveAddr (f : Fields) (s : State) : Word := operand1 f s + operand2 f s

end Sys2Proof.Machine
end

