-- ==== Sys2Proof/Machine/Arithmetic.lean ====
section
/-! DEFINITION. ADD, SUB, MUL, DIV (spec/41_alu_arithmetic.md section 2). -/

namespace Sys2Proof.Machine

/-- R114. -/
def execAdd (f : Fields) (s : State) : Result := execAlu aluAdd f s

/-- R115. -/
def execSub (f : Fields) (s : State) : Result := execAlu aluSub f s

/-- R116. -/
def execMul (f : Fields) (s : State) : Result := execAlu aluMul f s

/-- R117. -/
def execDiv (f : Fields) (s : State) : Result := execAlu aluDiv f s

end Sys2Proof.Machine
end

