-- ==== Sys2Proof/Machine/Control.lean ====
section
/-! DEFINITION. HALT, the one control instruction (spec/44_control.md section 1). Jumps are the other instructions with register 15
as their target (R141). -/

namespace Sys2Proof.Machine

/-- R140: the machine stops with the flags the ALU gives HALT; no register but the program counter changes. -/
def execHalt (f : Fields) (s : State) : Result :=
  whenExecuted f s (.next ((s.retire (aluHalt (operand1 f s) (operand2 f s)).2).setRun .halted))

end Sys2Proof.Machine
end

