-- ==== Sys2Proof/Machine/LoadStore.lean ====
section
/-! DEFINITION. LOAD and STORE (spec/43_load_store.md). -/

namespace Sys2Proof.Machine

/-- R131: the word at the effective address goes to the target register, after the flags of the address and the advance;
an address outside memory raises AddressFault with the target not written. -/
def execLoad (f : Fields) (s : State) : Result :=
  whenExecuted f s
    (let r := aluAddress (operand1 f s) (operand2 f s)
     let s' := s.retire r.2
     match s'.memRead r.1 with
     | none => raise (Fault.addressFault r.1 .load) s'
     | some (v, s'') => .next (s''.writeReg f.target v))

/-- R132: the target register, read after the advance (so register 15 gives `a + 1`), goes to the effective address. -/
def execStore (f : Fields) (s : State) : Result :=
  whenExecuted f s
    (let r := aluAddress (operand1 f s) (operand2 f s)
     let s' := s.retire r.2
     match s'.memWrite r.1 (s'.readReg f.target) with
     | none => raise (Fault.addressFault r.1 .store) s'
     | some s'' => .next s'')

end Sys2Proof.Machine
end

