-- ==== Sys2Proof/Machine/LogicShift.lean ====
section
/-! DEFINITION. AND, OR, XOR, SHL, SHR, ASR, the ALU extension (spec/42_alu_logic_shift.md). Whether an opcode exists is the
decoder's question (R73); these are the meanings it has where it does. -/

namespace Sys2Proof.Machine

/-- R121. -/
def execAnd (f : Fields) (s : State) : Result := execAlu aluAnd f s

/-- R122. -/
def execOr (f : Fields) (s : State) : Result := execAlu aluOr f s

/-- R123. -/
def execXor (f : Fields) (s : State) : Result := execAlu aluXor f s

/-- R124. -/
def execShl (f : Fields) (s : State) : Result := execAlu aluShl f s

/-- R125. -/
def execShr (f : Fields) (s : State) : Result := execAlu aluShr f s

/-- R126. -/
def execAsr (f : Fields) (s : State) : Result := execAlu aluAsr f s

end Sys2Proof.Machine
end

