-- ==== Sys2Proof/Machine/Fetch.lean ====
section
/-! DEFINITION. The phases of a step before the instruction's own (spec/40_execution_cycle.md R90 to R93, R104). -/

namespace Sys2Proof.Machine

/-- R90, with `run` for what the decoded instruction then does. Halted: no fetch, no event, no change (R104). Running:
fetch (R91), decode (R92), and one observation event, which a failed fetch or decode does not emit (R93). -/
def cycle (run : Instr → State → Result) (s : State) : Result :=
  match s.runState with
  | .halted => .next s
  | .running =>
    match s.fetch with
    | none => raise (Fault.addressFault s.pc .fetch) s
    | some (w, s') =>
      match decode s'.cfg.aluExt w with
      | .error (.unassignedOpcode word op) => raise (Fault.decodeError word op s.pc) s'
      | .ok i => run i (s'.emit { addr := s.pc, word := w, instr := i })

end Sys2Proof.Machine
end

