-- ==== Sys2Proof/Machine/Step.lean ====
section
/-! DEFINITION. The step (spec/40_execution_cycle.md R90). -/

namespace Sys2Proof.Machine

/-- R90: one step of the machine. -/
def step (s : State) : Host.Outcome State Fault Refusal := cycle exec s

/-- The state whose next step runs the instruction of the opcode table's bits `w` (assumption 10). -/
def State.withFetchWord (s : State) (nbits w : Nat) : State := placeNextWord s (tableWord nbits w)

end Sys2Proof.Machine
end

