-- ==== Sys2Proof/Machine/Assembly.lean ====
section
/-! DEFINITION. The notation for instructions (spec/30_encoding.md section 7, R79 to R86): canonical text, the three symbolic
forms and the numbering of lines. It binds the toolchain, not the machine: no step uses it. `SourceText.lean` reads the lines
from text (assumption 13). -/

namespace Sys2Proof.Machine

/-- R72: the mnemonic of an opcode. -/
def mnemonic : Opcode → String
  | .halt => "HALT"
  | .load => "LOAD"
  | .store => "STORE"
  | .add => "ADD"
  | .sub => "SUB"
  | .mul => "MUL"
  | .div => "DIV"
  | .and => "AND"
  | .or => "OR"
  | .xor => "XOR"
  | .shl => "SHL"
  | .shr => "SHR"
  | .asr => "ASR"

/-- R21: the name of a register. -/
def regName (r : RegIdx) : String := "r" ++ Nat.repr r.toNat

/-- R82: the letters of a predicate's flags, in the order M, Z, P, V. -/
def predLetters (c : FlagMask) : String :=
  (if c.getLsbD 0 then "M" else "") ++ (if c.getLsbD 1 then "Z" else "") ++
    (if c.getLsbD 2 then "P" else "") ++ (if c.getLsbD 3 then "V" else "")

/-- R79, R82: what follows the mnemonic: nothing for ALWAYS, a slash and the predicate for the rest. -/
def predSuffix (c : FlagMask) : String :=
  if c = 15#4 then "" else if c = 0#4 then "/NEVER" else "/" ++ predLetters c

/-- R79: an offset in signed decimal. -/
def offsetText (n : Int) : String := if n < 0 then "-" ++ Nat.repr n.natAbs else Nat.repr n.natAbs

/-- R79: the canonical text of an instruction, `OP rT,rA,rB[off]` or `OP/PRED rT,rA,rB[off]`. -/
def canonicalText (i : Instr) : String :=
  mnemonic i.op ++ predSuffix i.fields.cond ++ " " ++ regName i.fields.target ++ "," ++ regName i.fields.src1 ++ "," ++
    regName i.fields.src2 ++ "[" ++ offsetText i.fields.offset ++ "]"

/-- R84, R85: the fields of a symbolic form at address `here` that names the address `there`: register 0 and the program
counter as sources, and the distance as the offset. -/
def relativeFields (cond : FlagMask) (target : RegIdx) (here there : Nat) : Fields :=
  { cond := cond, target := target, src1 := 0#4, src2 := pcIdx, offset := (there : Int) - (here : Int) }

/-- R84: `JUMP[/PRED] label`. -/
def jumpTo (cond : FlagMask) (here there : Nat) : Instr := .add (relativeFields cond pcIdx here there)

/-- R85: `LOAD[/PRED] rT,label`. -/
def loadFrom (cond : FlagMask) (target : RegIdx) (here there : Nat) : Instr :=
  .load (relativeFields cond target here there)

/-- R85: `STORE[/PRED] rT,label`. -/
def storeTo (cond : FlagMask) (target : RegIdx) (here there : Nat) : Instr :=
  .store (relativeFields cond target here there)

/-- R80, R83 to R85: what one source line, already cut into its parts, asks for. -/
inductive LineBody where
  /-- A fully specified instruction (R81). -/
  | full (i : Instr)
  /-- `DATA`, with its literal if it has one (R83). -/
  | data (literal : Option Int)
  /-- `JUMP` to a label (R84). -/
  | jump (cond : FlagMask) (symbol : String)
  /-- `LOAD` from a label (R85). -/
  | load (cond : FlagMask) (target : RegIdx) (symbol : String)
  /-- `STORE` to a label (R85). -/
  | store (cond : FlagMask) (target : RegIdx) (symbol : String)
  /-- Nothing but perhaps a label and a comment. -/
  | blank
deriving DecidableEq, Repr

/-- R80: a line, with its label if it has one. -/
structure Line where
  label : Option String
  body : LineBody
deriving DecidableEq, Repr

/-- R86: how many words a line occupies. -/
def Line.size (l : Line) : Nat :=
  match l.body with
  | .blank => 0
  | .full _ => 1
  | .data _ => 1
  | .jump _ _ => 1
  | .load _ _ _ => 1
  | .store _ _ _ => 1

/-- R86, pass 1: each label with the address of the next word, counted from `address`. -/
def symbolTable : Nat → List Line → List (String × Nat)
  | _, [] => []
  | address, l :: ls =>
    match l.label with
    | none => symbolTable (address + l.size) ls
    | some name => (name, address) :: symbolTable (address + l.size) ls

/-- R84, R85: the address of a symbol, if the table has it. -/
def addressOf (table : List (String × Nat)) (symbol : String) : Option Nat :=
  (table.find? fun e => e.1 == symbol).map Prod.snd

/-- R83 to R85: the word a line at an address emits. `none`: the line occupies no word, or names a symbol the table does
not have, an error local to that line. A `DATA` line with no literal holds 0. -/
def emitWord (table : List (String × Nat)) (address : Nat) (body : LineBody) : Option Word :=
  match body with
  | .blank => none
  | .full i => some (encode i)
  | .data literal => some (wrap (literal.getD 0))
  | .jump cond symbol => (addressOf table symbol).map fun t => encode (jumpTo cond address t)
  | .load cond target symbol => (addressOf table symbol).map fun t => encode (loadFrom cond target address t)
  | .store cond target symbol => (addressOf table symbol).map fun t => encode (storeTo cond target address t)

/-- R86, pass 2: the words of the lines with their addresses, counted from `address`. -/
def emitLines (table : List (String × Nat)) : Nat → List Line → List (Nat × Word)
  | _, [] => []
  | address, l :: ls =>
    match emitWord table address l.body with
    | none => emitLines table (address + l.size) ls
    | some w => (address, w) :: emitLines table (address + l.size) ls

/-- R86: the words of a source, both passes, addresses from 0. -/
def assemble (ls : List Line) : List (Nat × Word) := emitLines (symbolTable 0 ls) 0 ls

end Sys2Proof.Machine
end

