-- ==== Sys2Proof/Machine/SourceText.lean ====
section
/-! DEFINITION. Reading one line of assembly text (spec/30_encoding.md R80 to R83, with R84 and R85 for the symbolic forms). It
binds the toolchain, not the machine: no step uses it. White space, the characters of a label and a signed literal are the
model's choices (assumption 13). -/

namespace Sys2Proof.Machine

/-! ## Tokens -/

/-- A piece of a line: a run of letters, digits and underscores, one punctuation mark, or a stretch of white space. -/
inductive Token where
  | word (cs : List Char)
  | mark (c : Char)
  | gap
deriving DecidableEq, Repr

/-- DESIGN CHOICE (assumption 13). The characters of opcodes, registers, predicates, numerals and labels. -/
def isWordChar (c : Char) : Bool := c.isAlphanum || c == '_'

/-- R80 to R85: the punctuation of the grammar; the minus sign belongs to a signed numeral. -/
def isMark (c : Char) : Bool := c == ':' || c == '/' || c == ',' || c == '[' || c == ']' || c == '-'

/-- R80: a comment runs from one of these to the end of the line. -/
def isCommentStart (c : Char) : Bool := c == '#' || c == ';'

/-- DESIGN CHOICE (assumption 13). What counts as white space inside a line. -/
def isBlank (c : Char) : Bool := c == ' ' || c == '\t' || c == '\r'

/-- A letter put in front of what follows it on the line. -/
def consLetter (c : Char) : List Token → List Token
  | .word w :: ts => .word (c :: w) :: ts
  | ts => .word [c] :: ts

/-- The tokens of a line, its comment dropped; `none` at a character no line-grammar of R80 has. -/
def lex : List Char → Option (List Token)
  | [] => some []
  | c :: cs =>
    if isCommentStart c then some []
    else if isWordChar c then (lex cs).map (consLetter c)
    else if isMark c then (lex cs).map (Token.mark c :: ·)
    else if isBlank c then (lex cs).map (Token.gap :: ·)
    else none

/-! ## Words -/

/-- R72: the opcodes, in the order of their numbers. -/
def opcodes : List Opcode :=
  [.halt, .load, .store, .add, .sub, .mul, .div, .and, .or, .xor, .shl, .shr, .asr]

/-- R80: opcode names are the upper-case mnemonics; R73: those of the extension exist only with `ALU_EXT`. -/
def readOpcode (ext : Bool) (w : List Char) : Option Opcode :=
  opcodes.find? fun op => op.assigned ext && (mnemonic op).toList == w

/-- R20, R21: `r0` to `r15`. -/
def registers : List RegIdx :=
  [0#4, 1#4, 2#4, 3#4, 4#4, 5#4, 6#4, 7#4, 8#4, 9#4, 10#4, 11#4, 12#4, 13#4, 14#4, 15#4]

/-- R21: a register name. -/
def readRegister (w : List Char) : Option RegIdx := registers.find? fun r => (regName r).toList == w

/-- R82: the flag a predicate letter names. -/
def flagOfLetter (c : Char) : Option FlagMask :=
  if c = 'M' then some 1#4 else if c = 'Z' then some 2#4 else if c = 'P' then some 4#4 else if c = 'V' then some 8#4
  else none

/-- R82: different letters written together mean the union of their masks. -/
def maskOfLetters : List Char → Option FlagMask
  | [] => some 0#4
  | c :: cs =>
    match flagOfLetter c, maskOfLetters cs with
    | some f, some m => if f &&& m = 0#4 then some (f ||| m) else none
    | _, _ => none

/-- R82: a predicate. -/
def readPredicate (w : List Char) : Option FlagMask :=
  if w = "ALWAYS".toList then some 15#4
  else if w = "NEVER".toList then some 0#4
  else maskOfLetters w

/-- The value of a digit, decimal or hexadecimal. -/
def digitValue (c : Char) : Option Nat :=
  if '0'.toNat ≤ c.toNat ∧ c.toNat ≤ '9'.toNat then some (c.toNat - '0'.toNat)
  else if 'a'.toNat ≤ c.toNat ∧ c.toNat ≤ 'f'.toNat then some (c.toNat - 'a'.toNat + 10)
  else if 'A'.toNat ≤ c.toNat ∧ c.toNat ≤ 'F'.toNat then some (c.toNat - 'A'.toNat + 10)
  else none

/-- The value of a run of digits after a prefix of value `acc`. -/
def numeral (base : Nat) : Nat → List Char → Option Nat
  | acc, [] => some acc
  | acc, c :: cs =>
    match digitValue c with
    | none => none
    | some d => if d < base then numeral base (acc * base + d) cs else none

/-- R81: a decimal numeral. -/
def readDecimal (w : List Char) : Option Nat := if w = [] then none else numeral 10 0 w

/-- R83: a literal, decimal or hexadecimal after `0x`. -/
def readLiteral : List Char → Option Nat
  | '0' :: 'x' :: c :: cs => numeral 16 0 (c :: cs)
  | w => readDecimal w

/-- DESIGN CHOICE (assumption 13). A label or a symbol is a word that does not begin with a digit. -/
def readSymbol : List Char → Option String
  | [] => none
  | c :: cs => if c.isDigit then none else some (String.ofList (c :: cs))

/-! ## The four line-grammars of R80 -/

/-- R81: the predicate after an opcode, ALWAYS where none is written, and what follows it. -/
def takePredicate : List Token → Option (FlagMask × List Token)
  | .mark '/' :: .word p :: ts => (readPredicate p).map fun c => (c, ts)
  | ts => some (15#4, ts)

/-- R81: the offset in its literal brackets at the end of a line, 0 where it is left out. -/
def readOffset : List Token → Option Int
  | [] => some 0
  | [.mark '[', .word w, .mark ']'] => (readDecimal w).map fun n => (n : Int)
  | [.mark '[', .mark '-', .word w, .mark ']'] => (readDecimal w).map fun n => -(n : Int)
  | _ => none

/-- R81: `rT,rA,rB`, perhaps with an offset. -/
def readOperands (op : Opcode) (cond : FlagMask) : List Token → Option LineBody
  | .word t :: .mark ',' :: .word a :: .mark ',' :: .word b :: rest =>
    match readRegister t, readRegister a, readRegister b, readOffset rest with
    | some t, some a, some b, some k => some (.full (Instr.make op ⟨cond, t, a, b, k⟩))
    | _, _, _, _ => none
  | _ => none

/-- R81: a fully specified instruction. -/
def readFull (ext : Bool) : List Token → Option LineBody
  | .word w :: ts =>
    match readOpcode ext w, takePredicate ts with
    | some op, some (cond, ts) => readOperands op cond ts
    | _, _ => none
  | _ => none

/-- R83: a data declaration. -/
def readData : List Token → Option LineBody
  | [.word w] => if w = "DATA".toList then some (.data none) else none
  | [.word w, .word l] => if w = "DATA".toList then (readLiteral l).map fun n => .data (some n) else none
  | [.word w, .mark '-', .word l] =>
    if w = "DATA".toList then (readLiteral l).map fun n => .data (some (-(n : Int))) else none
  | _ => none

/-- R84, R85: what follows the predicate of a symbolic form. -/
def readReference (name : List Char) (cond : FlagMask) : List Token → Option LineBody
  | [.word l] => if name = "JUMP".toList then (readSymbol l).map fun l => .jump cond l else none
  | [.word t, .mark ',', .word l] =>
    match readRegister t, readSymbol l with
    | some t, some l =>
      if name = "LOAD".toList then some (.load cond t l)
      else if name = "STORE".toList then some (.store cond t l)
      else none
    | _, _ => none
  | _ => none

/-- R84, R85: a symbolic instruction. -/
def readSymbolic : List Token → Option LineBody
  | .word w :: ts =>
    match takePredicate ts with
    | some (cond, ts) => readReference w cond ts
    | none => none
  | _ => none

/-- R80: nothing but what stood before, a label or a comment. -/
def readEmpty : List Token → Option LineBody
  | [] => some .blank
  | _ => none

/-- R80: the four kinds of line, tried in their fixed order. -/
def readBody (ext : Bool) (ts : List Token) : Option LineBody :=
  match readFull ext ts with
  | some b => some b
  | none =>
    match readData ts with
    | some b => some b
    | none =>
      match readSymbolic ts with
      | some b => some b
      | none => readEmpty ts

/-- R80: a label before the body of a line. -/
def readTokens (ext : Bool) : List Token → Option Line
  | .word l :: .mark ':' :: ts =>
    match readSymbol l, readBody ext ts with
    | some name, some b => some ⟨some name, b⟩
    | _, _ => none
  | ts => (readBody ext ts).map fun b => ⟨none, b⟩

/-- R80: one line of source; `none` is a syntax error of that line. -/
def readLine (ext : Bool) (text : List Char) : Option Line :=
  match lex text with
  | none => none
  | some ts => readTokens ext (ts.filter (· ≠ Token.gap))

/-! ## A whole source -/

/-- The lines of a text. -/
def splitLines : List Char → List (List Char)
  | [] => [[]]
  | c :: cs =>
    if c = '\n' then [] :: splitLines cs
    else
      match splitLines cs with
      | [] => [[c]]
      | l :: ls => (c :: l) :: ls

/-- R80, R86: the words of a source text with their addresses. A line with a syntax error emits no word and defines no
symbol. -/
def assembleText (ext : Bool) (text : String) : List (Nat × Word) :=
  assemble ((splitLines text.toList).filterMap (readLine ext))

/-- R80: the numbers, from `n`, of the lines with a syntax error. How many are too many is the assembler's policy, which
spec/00_scope.md R4 leaves out. -/
def syntaxErrors (ext : Bool) : Nat → List (List Char) → List Nat
  | _, [] => []
  | n, l :: ls =>
    match readLine ext l with
    | none => n :: syntaxErrors ext (n + 1) ls
    | some _ => syntaxErrors ext (n + 1) ls

end Sys2Proof.Machine
end

