-- ==== Sys2Proof/Machine/HostRun.lean ====
section
/-! DEFINITION. The host's `run` (spec/00_scope.md R7; spec/70_reset_and_hazards.md R173, R176) and what the host reads after it. -/

namespace Sys2Proof.Machine

/-- R173: the loop of `run`, at most `fuel` steps of it: it stops when Halted and at a fatal error. The core has no bound
(R7); the fuel is the host's step-count bound, and a result that is still Running has not ended (assumption 16). -/
def runLoop : Nat → State → Result
  | 0, s => .next s
  | fuel + 1, s =>
    match s.runState with
    | .halted => .next s
    | .running =>
      match step s with
      | .next s' => runLoop fuel s'
      | .fault e => .fault e
      | .refused r => .refused r

/-- R173: `run(start_address)`. -/
def run (fuel : Nat) (start : Word) (s : State) : Result := runLoop fuel (startRun start s)

/-- R30: the host reads the run state as the boolean `halted`. -/
def State.halted (s : State) : Bool := decide (s.runState = .halted)

/-- U15: the output trace, `(address, word)` of every device write in order. -/
def outputTrace : List DeviceAccess → List (Word × Word)
  | [] => []
  | .write a v :: l => (a, v) :: outputTrace l
  | .read _ _ :: l => outputTrace l

/-- U14: the input trace, `(address, word)` of every device read in order. -/
def inputTrace : List DeviceAccess → List (Word × Word)
  | [] => []
  | .read a v :: l => (a, v) :: inputTrace l
  | .write _ _ :: l => inputTrace l

end Sys2Proof.Machine
end

