-- ==== Sys2Proof/Safety.lean ====
section
/-! DEFINITION. The terms claims about this machine use: how an executed instruction leaves registers, memory and device, the
invariant of a good state, and how a run ends. -/

namespace Sys2Proof.Machine

/-- R94: the predicate of the instruction holds. -/
abbrev Executed (f : Fields) (s : State) : Prop := s.cc &&& f.cond ≠ 0#4

/-- R96: operand 1 of an executed instruction, `x[src1]`, read from the state before the instruction, where register 15 is
the instruction's own address (R101). -/
def firstOperand (f : Fields) (s : State) : Word := s.readReg f.src1

/-- R96: operand 2, `wrap(x[src2] + sext_32(offset))`, from the same state. -/
def secondOperand (f : Fields) (s : State) : Word := s.readReg f.src2 + BitVec.ofInt 32 f.offset

/-- R130: `wrap(x[src1] + x[src2] + sext_32(offset))`. -/
def addressOfAccess (f : Fields) (s : State) : Word := s.readReg f.src1 + s.readReg f.src2 + BitVec.ofInt 32 f.offset

/-- R114, R140: the fields beside the opcode, as the encodings of the instruction rules place them:
`cond<<22 | T<<18 | A<<14 | B<<10 | off[9:0]`. -/
def fieldBits (f : Fields) : Word :=
  (f.cond.setWidth 32 <<< 22) ||| (f.target.setWidth 32 <<< 18) ||| (f.src1.setWidth 32 <<< 14) |||
    (f.src2.setWidth 32 <<< 10) ||| (BitVec.ofInt 32 f.offset &&& 0x3FF#32)

/-- R22, R25, R102: `t`'s registers are `s`'s after the advance and a write of `v` to `target`: register 0 still reads 0,
and a write of register 15 overrides the advance. -/
def RegsAfterWrite (s t : State) (target : RegIdx) (v : Word) : Prop :=
  ∀ r : RegIdx, t.readReg r =
    if r = 0#4 then 0#32 else if r = target then v else if r = 15#4 then s.readReg 15#4 + 1#32 else s.readReg r

/-- R25, R95: `t`'s registers are `s`'s but for the program counter, which is one further. -/
def OnlyPcAdvances (s t : State) : Prop :=
  ∀ r : RegIdx, t.readReg r = if r = 15#4 then s.readReg 15#4 + 1#32 else s.readReg r

/-- Every address of memory reads as before. -/
def SameMemory (s t : State) : Prop := ∀ a : Nat, t.mem.read a = s.mem.read a

/-- No access reached the device. -/
def SameDevice (s t : State) : Prop :=
  t.deviceLog = s.deviceLog ∧ t.deviceIn = s.deviceIn ∧ t.draws = s.draws

/-- The run state, the parameters and the events are as before. -/
def SameControl (s t : State) : Prop := t.runState = s.runState ∧ t.cfg = s.cfg ∧ t.events = s.events

/-- R100, last row: what an executed ALU instruction with result `res` and flags `flags` leaves, and leaves alone. -/
structure AluEffect (f : Fields) (s t : State) (res : Word) (flags : FlagMask) : Prop where
  regs : RegsAfterWrite s t f.target res
  cc : t.cc = flags
  mem : SameMemory s t
  device : SameDevice s t
  control : SameControl s t

/-- R95: all that a skipped instruction leaves. -/
def SkipEffect (s t : State) : Prop :=
  OnlyPcAdvances s t ∧ t.cc = s.cc ∧ SameMemory s t ∧ SameDevice s t ∧ SameControl s t

/-- R97, R98: the instruction ran: the flags it leaves, in its next state or its fault, are those the ALU gives for its
opcode and operands. -/
def LeavesAluFlags (i : Instr) (s : State) : Prop :=
  ∃ t : State, (exec i s = .next t ∨ ∃ e, exec i s = .fault e ∧ e.left = t) ∧
    t.cc = (aluOp i.op (firstOperand i.fields s) (secondOperand i.fields s)).2

/-- R112: the three cases in which V is set, and no other. -/
def OverflowCase (op : Opcode) (a b : Word) : Prop :=
  (op = .add ∧ (a.toInt + b.toInt < -2 ^ 31 ∨ 2 ^ 31 - 1 < a.toInt + b.toInt)) ∨
    (op = .sub ∧ (a.toInt - b.toInt < -2 ^ 31 ∨ 2 ^ 31 - 1 < a.toInt - b.toInt)) ∨
    (op = .mul ∧ (a.toInt * b.toInt < -2 ^ 31 ∨ 2 ^ 31 - 1 < a.toInt * b.toInt)) ∨
    (op = .div ∧ (b = 0#32 ∨ (a = 0x80000000#32 ∧ b = 0xFFFFFFFF#32)))

/-- R111, R112: flags of a truncated result, with V when the exact result `e` does not fit. -/
def flagsOfExact (e : Int) : FlagMask :=
  if e < -2 ^ 31 ∨ e > 2 ^ 31 - 1 then szp (BitVec.ofInt 32 e) ||| 8#4 else szp (BitVec.ofInt 32 e)

/-- R72, R73: the opcode numbers that are assigned under a setting of `ALU_EXT`. -/
abbrev AssignedNumber (ext : Bool) (n : Nat) : Prop :=
  n ≤ 3 ∨ (5 ≤ n ∧ n ≤ 7) ∨ (ext = true ∧ 8 ≤ n ∧ n ≤ 13)

/-- R41, R44: the address exists and lies outside the I/O window. -/
abbrev IsPlain (p : Params) (a : Word) : Prop := a.toNat < p.memWords ∧ ¬(p.mmioLo ≤ a.toNat ∧ a.toNat ≤ p.mmioHi)

/-- R41, R44: the address exists and lies in the I/O window. -/
abbrev IsWindow (p : Params) (a : Word) : Prop := a.toNat < p.memWords ∧ p.mmioLo ≤ a.toNat ∧ a.toNat ≤ p.mmioHi

/-- R28, R29, R111: the values the flag register can hold: 15 after reset, else one of M, Z, P with or without V. -/
abbrev LegalFlags (c : FlagMask) : Prop := c ∈ [15#4, 1#4, 2#4, 4#4, 9#4, 10#4, 12#4]

/-- A good state: legal parameters (R5), memory in canonical form with entries for plain cells alone (R33), the unused
register slot 0 at 0 (R22) and legal flags (R29). -/
structure GoodState (s : State) : Prop where
  params : s.cfg.wf = true
  canonical : s.mem.wf = true
  plainCells : ∀ c ∈ s.mem, c.1 < s.cfg.memWords ∧ ¬(s.cfg.mmioLo ≤ c.1 ∧ c.1 ≤ s.cfg.mmioHi)
  slotZero : s.regs[0] = 0#32
  flags : LegalFlags s.cc

/-- R176: a run has ended normally exactly when the run state is Halted. -/
abbrev EndedNormally (s : State) : Prop := s.runState = .halted

end Sys2Proof.Machine
end

