-- ==== Sys2Proof/Certificates/Slice0/Obligations.lean ====
section
/-! DEFINITION. The statements for the provers. `Safety.lean` holds the terms they share: `Executed`, the operands, and what an
executed instruction leaves and leaves alone. -/

open Sys2Proof Sys2Proof.Machine

/-! ## The decoder block (spec/30_encoding.md) -/

/-- The words of spec/95_test_vectors.md V20 to V45, written out from R66 and R72, decode to the records beside them. -/
def Obligations.SpecWordsDecode : Prop :=
  decode true 0x0FC48C00#32 = .ok (.add ⟨15#4, 1#4, 2#4, 3#4, 0⟩) ∧
  decode true 0x07C43FFF#32 = .ok (.load ⟨15#4, 1#4, 0#4, 15#4, -1⟩) ∧
  decode true 0x0BC401FF#32 = .ok (.store ⟨15#4, 1#4, 0#4, 0#4, 511⟩) ∧
  decode true 0x19915A00#32 = .ok (.mul ⟨6#4, 4#4, 5#4, 6#4, -512⟩) ∧
  decode true 0x363B7001#32 = .ok (.asr ⟨8#4, 14#4, 13#4, 12#4, 1⟩) ∧
  decode true 0x00000005#32 = .ok (.halt ⟨0#4, 0#4, 0#4, 0#4, 5⟩) ∧
  decode true 0x10000000#32 = .error (.unassignedOpcode 0x10000000#32 4) ∧
  decode true 0x80000005#32 = .error (.unassignedOpcode 0x80000005#32 32)

/-- R78, both laws, under both settings of `ALU_EXT`: the representable records and the words that decode correspond one
to one. -/
def Obligations.DecodeAndEncodeAgree : Prop :=
  (∀ (ext : Bool) (i : Instr), i.wellFormed ext = true → decode ext (encode i) = .ok i) ∧
  (∀ (ext : Bool) (w : Word) (i : Instr), decode ext w = .ok i → encode i = w ∧ i.wellFormed ext = true)

/-- R75: exactly the words with an unassigned opcode do not decode; the error names the word and its `op` field. -/
def Obligations.WordsThatDoNotDecode : Prop :=
  (∀ (ext : Bool) (w : Word),
    decode ext w = .error (.unassignedOpcode w (w.toNat / 2 ^ 26)) ↔
      (w.toNat / 2 ^ 26 = 4 ∨ 14 ≤ w.toNat / 2 ^ 26 ∨
        (ext = false ∧ 8 ≤ w.toNat / 2 ^ 26 ∧ w.toNat / 2 ^ 26 ≤ 13))) ∧
  (∀ w : Word, (∃ e, decode true w = .error e) ↔
    (0x38000000 ≤ w.toNat ∨ (0x10000000 ≤ w.toNat ∧ w.toNat ≤ 0x13FFFFFF)))

/-- R74: decode is total: an assigned opcode gives the record of all six fields, bit for bit; any other, the error. -/
def Obligations.DecodeExtractsEveryField : Prop :=
  ∀ (ext : Bool) (w : Word),
    (AssignedNumber ext (w.extractLsb' 26 6).toNat →
      ∃ i, decode ext w = .ok i ∧
        i.op.number = (w.extractLsb' 26 6).toNat ∧
        i.fields.cond = w.extractLsb' 22 4 ∧
        i.fields.target = w.extractLsb' 18 4 ∧
        i.fields.src1 = w.extractLsb' 14 4 ∧
        i.fields.src2 = w.extractLsb' 10 4 ∧
        i.fields.offset = (w.extractLsb' 0 10).toInt) ∧
    (¬AssignedNumber ext (w.extractLsb' 26 6).toNat →
      decode ext w = .error (.unassignedOpcode w (w.extractLsb' 26 6).toNat))

/-- R64: the three laws of a BitField, for every field, word and value. -/
def Obligations.BitFieldLaws : Prop :=
  (∀ (F : BitField) (v : Nat) (w : Word), F.valid = true → v < 2 ^ F.width → F.extract (F.insert v w) = v) ∧
  (∀ (F : BitField) (v : Int) (w : Word) (k : Nat), F.valid = true → k < 32 → (k < F.lo ∨ F.hi < k) →
    (F.insert v w).getLsbD k = w.getLsbD k) ∧
  (∀ (F : BitField) (v : Int) (w : Word), F.valid = true →
    (F.extract (F.insert v w) : Int) = v % 2 ^ F.width) ∧
  (∀ width f : Nat, 2 ≤ width → f < 2 ^ width →
    ((0 ≤ signExtend f width ↔ f.testBit (width - 1) = false) ∧
      (f.testBit (width - 1) = true → signExtend f width = (f : Int) - 2 ^ width)))

/-- R77: encode is the format's formula, and every field value is cut to its low bits. -/
def Obligations.EncodeTruncatesEveryField : Prop :=
  (∀ n c t a b o : Int, (encodeRaw n c t a b o).toNat =
    ((n % 64).toNat * 2 ^ 26) ||| ((c % 16).toNat * 2 ^ 22) ||| ((t % 16).toNat * 2 ^ 18) |||
      ((a % 16).toNat * 2 ^ 14) ||| ((b % 16).toNat * 2 ^ 10) ||| (o % 1024).toNat) ∧
  (∀ i : Instr, (encode i).toNat =
    (i.op.number * 2 ^ 26) ||| (i.fields.cond.toNat * 2 ^ 22) ||| (i.fields.target.toNat * 2 ^ 18) |||
      (i.fields.src1.toNat * 2 ^ 14) ||| (i.fields.src2.toNat * 2 ^ 10) ||| (i.fields.offset % 1024).toNat)

/-! ## The ALU instructions (spec/41_alu_arithmetic.md, spec/42_alu_logic_shift.md)

Each says where the instruction's word comes from, and that in every state whose flags meet its mask it completes, with
its result, its flags and its frame. -/

/-- R114. V by the spec's decision D9. -/
def Obligations.AddWritesTheSum : Prop :=
  ∀ f : Fields, encode (.add f) = 0x0C000000#32 ||| fieldBits f ∧
    ∀ s : State, Executed f s →
      ∃ t, exec (.add f) s = .next t ∧
        AluEffect f s t (BitVec.ofInt 32 ((firstOperand f s).toInt + (secondOperand f s).toInt))
          (flagsOfExact ((firstOperand f s).toInt + (secondOperand f s).toInt))

/-- R115. -/
def Obligations.SubWritesTheDifference : Prop :=
  ∀ f : Fields, encode (.sub f) = 0x14000000#32 ||| fieldBits f ∧
    ∀ s : State, Executed f s →
      ∃ t, exec (.sub f) s = .next t ∧
        AluEffect f s t (BitVec.ofInt 32 ((firstOperand f s).toInt - (secondOperand f s).toInt))
          (flagsOfExact ((firstOperand f s).toInt - (secondOperand f s).toInt))

/-- R116. -/
def Obligations.MulWritesTheLowProduct : Prop :=
  ∀ f : Fields, encode (.mul f) = 0x18000000#32 ||| fieldBits f ∧
    ∀ s : State, Executed f s →
      ∃ t, exec (.mul f) s = .next t ∧
        AluEffect f s t (BitVec.ofInt 32 ((firstOperand f s).toInt * (secondOperand f s).toInt))
          (flagsOfExact ((firstOperand f s).toInt * (secondOperand f s).toInt))

/-- R117, with the quotient said by what floor division means (`q * d <= n < (q + 1) * d`, turned for a negative
divisor) and its two overflow cases; a zero divisor gives 0 with Z and V and stops nothing. -/
def Obligations.DivWritesTheFloorQuotient : Prop :=
  ∀ f : Fields, encode (.div f) = 0x1C000000#32 ||| fieldBits f ∧
    ∀ s : State, Executed f s →
      (secondOperand f s = 0#32 → ∃ t, exec (.div f) s = .next t ∧ AluEffect f s t 0#32 10#4) ∧
      (firstOperand f s = 0x80000000#32 → secondOperand f s = 0xFFFFFFFF#32 →
        ∃ t, exec (.div f) s = .next t ∧ AluEffect f s t 0x80000000#32 9#4) ∧
      (secondOperand f s ≠ 0#32 → ¬(firstOperand f s = 0x80000000#32 ∧ secondOperand f s = 0xFFFFFFFF#32) →
        ∃ t q, exec (.div f) s = .next t ∧ AluEffect f s t q (szp q) ∧
          (0 < (secondOperand f s).toInt →
            q.toInt * (secondOperand f s).toInt ≤ (firstOperand f s).toInt ∧
              (firstOperand f s).toInt < (q.toInt + 1) * (secondOperand f s).toInt) ∧
          ((secondOperand f s).toInt < 0 →
            (firstOperand f s).toInt ≤ q.toInt * (secondOperand f s).toInt ∧
              (q.toInt + 1) * (secondOperand f s).toInt < (firstOperand f s).toInt))

/-- R121, each bit of the result. -/
def Obligations.AndWritesTheBitwiseAnd : Prop :=
  ∀ f : Fields, encode (.and f) = 0x20000000#32 ||| fieldBits f ∧
    ∀ s : State, Executed f s →
      ∃ t r, exec (.and f) s = .next t ∧ AluEffect f s t r (szp r) ∧
        ∀ k, r.getLsbD k = ((firstOperand f s).getLsbD k && (secondOperand f s).getLsbD k)

/-- R122, each bit of the result. -/
def Obligations.OrWritesTheBitwiseOr : Prop :=
  ∀ f : Fields, encode (.or f) = 0x24000000#32 ||| fieldBits f ∧
    ∀ s : State, Executed f s →
      ∃ t r, exec (.or f) s = .next t ∧ AluEffect f s t r (szp r) ∧
        ∀ k, r.getLsbD k = ((firstOperand f s).getLsbD k || (secondOperand f s).getLsbD k)

/-- R123, each bit of the result. -/
def Obligations.XorWritesTheBitwiseXor : Prop :=
  ∀ f : Fields, encode (.xor f) = 0x28000000#32 ||| fieldBits f ∧
    ∀ s : State, Executed f s →
      ∃ t r, exec (.xor f) s = .next t ∧ AluEffect f s t r (szp r) ∧
        ∀ k, r.getLsbD k = ((firstOperand f s).getLsbD k ^^ (secondOperand f s).getLsbD k)

/-- R124, R120: the shift amount is `op2[4:0]`; zeros enter at bit 0 and the top bits are lost, with no V. -/
def Obligations.ShlShiftsLeft : Prop :=
  ∀ f : Fields, encode (.shl f) = 0x2C000000#32 ||| fieldBits f ∧
    ∀ s : State, Executed f s →
      ∃ t r, exec (.shl f) s = .next t ∧ AluEffect f s t r (szp r) ∧
        r.toNat = (firstOperand f s).toNat * 2 ^ ((secondOperand f s).extractLsb' 0 5).toNat % 2 ^ 32

/-- R125, R120: `floor(u(op1) / 2^n)`. -/
def Obligations.ShrShiftsRightWithZeros : Prop :=
  ∀ f : Fields, encode (.shr f) = 0x30000000#32 ||| fieldBits f ∧
    ∀ s : State, Executed f s →
      ∃ t r, exec (.shr f) s = .next t ∧ AluEffect f s t r (szp r) ∧
        r.toNat = (firstOperand f s).toNat / 2 ^ ((secondOperand f s).extractLsb' 0 5).toNat

/-- R126, R120: `floor(s(op1) / 2^n)`, said by what floor means. -/
def Obligations.AsrShiftsRightWithTheSign : Prop :=
  ∀ f : Fields, encode (.asr f) = 0x34000000#32 ||| fieldBits f ∧
    ∀ s : State, Executed f s →
      ∃ t r, exec (.asr f) s = .next t ∧ AluEffect f s t r (szp r) ∧
        r.toInt * 2 ^ ((secondOperand f s).extractLsb' 0 5).toNat ≤ (firstOperand f s).toInt ∧
        (firstOperand f s).toInt < (r.toInt + 1) * 2 ^ ((secondOperand f s).extractLsb' 0 5).toNat

/-! ## LOAD, STORE and HALT (spec/43_load_store.md, spec/44_control.md) -/

/-- R131, R133: an executed LOAD from a plain word, from the I/O window (whatever word the device gives) and from
outside memory; a skipped one makes no access. -/
def Obligations.LoadReadsTheEffectiveAddress : Prop :=
  ∀ f : Fields, encode (.load f) = 0x04000000#32 ||| fieldBits f ∧
    (∀ s : State, ¬Executed f s → ∃ t, exec (.load f) s = .next t ∧ SkipEffect s t) ∧
    ∀ s : State, Executed f s →
      (IsPlain s.cfg (addressOfAccess f s) →
        ∃ t, exec (.load f) s = .next t ∧
          RegsAfterWrite s t f.target (s.mem.read (addressOfAccess f s).toNat) ∧
          t.cc = szp (addressOfAccess f s) ∧ SameMemory s t ∧ SameDevice s t ∧ SameControl s t) ∧
      (IsWindow s.cfg (addressOfAccess f s) →
        ∃ t v, exec (.load f) s = .next t ∧ RegsAfterWrite s t f.target v ∧
          t.deviceLog = s.deviceLog ++ [.read (addressOfAccess f s) v] ∧
          t.cc = szp (addressOfAccess f s) ∧ SameMemory s t ∧ SameControl s t) ∧
      (s.cfg.memWords ≤ (addressOfAccess f s).toNat →
        ∃ left, exec (.load f) s = .fault (.addressFault (addressOfAccess f s) .load left) ∧
          OnlyPcAdvances s left ∧ left.cc = szp (addressOfAccess f s) ∧ SameMemory s left ∧ SameDevice s left ∧
          SameControl s left)

/-- R132, R133: an executed STORE to a plain word, to the I/O window and to outside memory. The word stored is the
target register's after the advance, so register 15 stores the next instruction's address. A skipped STORE writes nothing. -/
def Obligations.StoreWritesTheEffectiveAddress : Prop :=
  ∀ f : Fields, encode (.store f) = 0x08000000#32 ||| fieldBits f ∧
    (∀ s : State, ¬Executed f s → ∃ t, exec (.store f) s = .next t ∧ SkipEffect s t) ∧
    ∀ (s : State) (v : Word), Executed f s →
      v = (if f.target = 15#4 then s.readReg 15#4 + 1#32 else s.readReg f.target) →
      (IsPlain s.cfg (addressOfAccess f s) →
        ∃ t, exec (.store f) s = .next t ∧ OnlyPcAdvances s t ∧ t.cc = szp (addressOfAccess f s) ∧
          t.mem.read (addressOfAccess f s).toNat = v ∧
          (∀ a, a ≠ (addressOfAccess f s).toNat → t.mem.read a = s.mem.read a) ∧
          SameDevice s t ∧ SameControl s t) ∧
      (IsWindow s.cfg (addressOfAccess f s) →
        ∃ t, exec (.store f) s = .next t ∧ OnlyPcAdvances s t ∧ t.cc = szp (addressOfAccess f s) ∧
          t.deviceLog = s.deviceLog ++ [.write (addressOfAccess f s) v] ∧
          t.deviceIn = s.deviceIn ∧ t.draws = s.draws ∧ SameMemory s t ∧ SameControl s t) ∧
      (s.cfg.memWords ≤ (addressOfAccess f s).toNat →
        ∃ left, exec (.store f) s = .fault (.addressFault (addressOfAccess f s) .store left) ∧
          OnlyPcAdvances s left ∧ left.cc = szp (addressOfAccess f s) ∧ SameMemory s left ∧ SameDevice s left ∧
          SameControl s left)

/-- R140: an executed HALT, whatever its other fields; a skipped HALT does not halt, and Halted is terminal for stepping. -/
def Obligations.HaltStopsTheMachine : Prop :=
  ∀ f : Fields, encode (.halt f) = 0x00000000#32 ||| fieldBits f ∧
    (∀ s : State, ¬Executed f s → ∃ t, exec (.halt f) s = .next t ∧ SkipEffect s t) ∧
    ∀ s : State, Executed f s →
      ∃ t, exec (.halt f) s = .next t ∧ OnlyPcAdvances s t ∧ t.cc = 2#4 ∧ t.runState = .halted ∧
        t.cfg = s.cfg ∧ t.events = s.events ∧ SameMemory s t ∧ SameDevice s t ∧ step t = .next t

/-! ## The ALU block (spec/41_alu_arithmetic.md section 1) -/

/-- R111: M, Z or P from the truncated result, V beside it exactly in an overflow case, and the six values the flags can
take. -/
def Obligations.FlagsFollowTheResult : Prop :=
  (∀ r : Word, (r = 0#32 → szp r = 2#4) ∧ (r ≠ 0#32 → r.getLsbD 31 = true → szp r = 1#4) ∧
    (r ≠ 0#32 → r.getLsbD 31 = false → szp r = 4#4)) ∧
  (∀ (op : Opcode) (a b : Word),
    (¬OverflowCase op a b → (aluOp op a b).2 = szp (aluOp op a b).1) ∧
    (OverflowCase op a b → (aluOp op a b).2 = szp (aluOp op a b).1 ||| 8#4) ∧
    (aluOp op a b).2 ∈ [1#4, 2#4, 4#4, 9#4, 10#4, 12#4])

/-- R112: V in exactly its three cases, for every opcode. -/
def Obligations.OverflowFlagCases : Prop :=
  ∀ (op : Opcode) (a b : Word), (aluOp op a b).2 &&& 8#4 ≠ 0#4 ↔ OverflowCase op a b

/-- R113's error, at the level of the ALU block alone: an opcode number outside the enumeration gives no result and the
error names it; every member gives a result. -/
def Obligations.AluBlockRejectsUnknownOpcodes : Prop :=
  ∀ (ext : Bool) (n : Nat) (a b : Word),
    (¬AssignedNumber ext n → aluExec ext n a b = .error (.unknownOpcode n)) ∧
    (AssignedNumber ext n → ∃ op : Opcode, op.number = n ∧ aluExec ext n a b = .ok (aluOp op a b))

/-- The shifts of R124 to R126 as the bit movements their rules' comments describe. -/
def Obligations.ShiftsAreBitShifts : Prop :=
  ∀ a b : Word,
    (aluOp .shl a b).1 = a <<< (b &&& 31#32).toNat ∧
    (aluOp .shr a b).1 = a >>> (b &&& 31#32).toNat ∧
    (aluOp .asr a b).1 = a.sshiftRight (b &&& 31#32).toNat

/-! ## The step (spec/40_execution_cycle.md, spec/60_exceptions.md) -/

/-- A step runs the decoded instruction: fetch, decode, one event, and then exec. The second part spells the fetch out
for an instruction in plain memory. -/
def Obligations.StepRunsTheDecodedInstruction : Prop :=
  (∀ (s s' : State) (w : Word) (i : Instr), s.runState = .running → s.fetch = some (w, s') →
    decode s'.cfg.aluExt w = .ok i →
      step s = exec i (s'.emit { addr := s.readReg 15#4, word := w, instr := i })) ∧
  (∀ (s : State) (i : Instr), s.runState = .running → IsPlain s.cfg (s.readReg 15#4) →
    decode s.cfg.aluExt (s.mem.read (s.readReg 15#4).toNat) = .ok i →
      step s = exec i { s with
        events := s.events ++
          [{ addr := s.readReg 15#4, word := s.mem.read (s.readReg 15#4).toNat, instr := i }] })

/-- R104: a step while Halted changes nothing. -/
def Obligations.HaltedStepChangesNothing : Prop :=
  ∀ s : State, s.runState = .halted → step s = .next s

/-- R153, the fetch: a program counter outside memory stops the step before anything changes. -/
def Obligations.FetchOutsideMemoryFaults : Prop :=
  ∀ s : State, s.runState = .running → s.cfg.memWords ≤ (s.readReg 15#4).toNat →
    step s = .fault (.addressFault (s.readReg 15#4) .fetch s)

/-- R91: a fetch from the I/O window is one device read and changes nothing else. -/
def Obligations.FetchFromTheWindowAsksTheDevice : Prop :=
  ∀ s : State, IsWindow s.cfg (s.readReg 15#4) →
    ∃ w s', s.fetch = some (w, s') ∧ s'.deviceLog = s.deviceLog ++ [.read (s.readReg 15#4) w] ∧
      (∀ r, s'.readReg r = s.readReg r) ∧ s'.cc = s.cc ∧ SameMemory s s' ∧ SameControl s s'

/-- R151: a fetched word with an unassigned opcode stops the step in the DECODE phase, whatever its mask: no event, no
advance, no flag; and only such a word does. -/
def Obligations.UndecodableWordFaults : Prop :=
  (∀ (s s' : State) (w : Word), s.runState = .running → s.fetch = some (w, s') →
    ¬AssignedNumber s.cfg.aluExt (w.toNat / 2 ^ 26) →
      step s = .fault (.decodeError w (w.toNat / 2 ^ 26) (s.readReg 15#4) s') ∧
        (∀ r, s'.readReg r = s.readReg r) ∧ s'.cc = s.cc ∧ SameMemory s s' ∧ SameControl s s' ∧
        (IsPlain s.cfg (s.readReg 15#4) → s' = s)) ∧
  (∀ (s left : State) (w a : Word) (n : Nat), step s = .fault (.decodeError w n a left) →
    a = s.readReg 15#4 ∧ n = w.toNat / 2 ^ 26 ∧ ¬AssignedNumber s.cfg.aluExt n ∧ s.fetch = some (w, left))

/-- R95: a skipped instruction of any opcode advances and does nothing else. -/
def Obligations.SkippedInstructionOnlyAdvances : Prop :=
  ∀ (i : Instr) (s : State), ¬Executed i.fields s →
    ∃ t, exec i s = .next t ∧ SkipEffect s t

/-- R155, R153: an instruction faults exactly when it is an executed LOAD or STORE whose address lies outside memory;
no arithmetic, jump, skip or device access does. -/
def Obligations.OnlyBadDataAddressesFault : Prop :=
  ∀ (i : Instr) (s : State), (∃ e, exec i s = .fault e) ↔
    (Executed i.fields s ∧ (i.op = .load ∨ i.op = .store) ∧ s.cfg.memWords ≤ (addressOfAccess i.fields s).toNat)

/-- The spec's own inference in spec/70_reset_and_hazards.md section 4 (Progress): the machine is never stuck. -/
def Obligations.NoStepIsRefused : Prop :=
  ∀ s : State, (∃ t, step s = .next t) ∨ (∃ e, step s = .fault e)

/-- The spec's own inference at the end of spec/40_execution_cycle.md (what every step guarantees), (a) to (f). -/
def Obligations.WhatEveryStepGuarantees : Prop :=
  ∀ s t : State, s.runState = .running → step s = .next t →
    ∃ w s' i, s.fetch = some (w, s') ∧ decode s.cfg.aluExt w = .ok i ∧
      (¬(Executed i.fields s ∧ i.op ≠ .store ∧ i.op ≠ .halt ∧ i.fields.target = 15#4) →
        t.readReg 15#4 = s.readReg 15#4 + 1#32) ∧
      (t.cc ≠ s.cc → Executed i.fields s) ∧
      (∀ r, r ≠ 15#4 → t.readReg r ≠ s.readReg r →
        Executed i.fields s ∧ i.op ≠ .store ∧ i.op ≠ .halt ∧ r = i.fields.target) ∧
      (∀ a, t.mem.read a ≠ s.mem.read a →
        Executed i.fields s ∧ i.op = .store ∧ a = (addressOfAccess i.fields s).toNat) ∧
      (s.readReg 0#4 = 0#32 ∧ t.readReg 0#4 = 0#32) ∧
      (t.runState ≠ s.runState ↔ Executed i.fields s ∧ i.op = .halt)

/-- The spec's own inference in spec/60_exceptions.md section 4 (the state left by each error), for the errors a step can
raise. That a fault carries the state it leaves is the model's choice (assumption 6). -/
def Obligations.FaultsLeaveThePreciseState : Prop :=
  ∀ (s : State) (e : Fault), step s = .fault e → s.runState = .running ∧
    ((s.cfg.memWords ≤ (s.readReg 15#4).toNat ∧ e = .addressFault (s.readReg 15#4) .fetch s) ∨
      (∃ w s', s.fetch = some (w, s') ∧ e = .decodeError w (w.toNat / 2 ^ 26) (s.readReg 15#4) s' ∧
        ¬AssignedNumber s.cfg.aluExt (w.toNat / 2 ^ 26) ∧
        (∀ r, s'.readReg r = s.readReg r) ∧ s'.cc = s.cc ∧ SameMemory s s' ∧ SameControl s s') ∨
      (∃ w s' i left, s.fetch = some (w, s') ∧ decode s.cfg.aluExt w = .ok i ∧ Executed i.fields s ∧
        s.cfg.memWords ≤ (addressOfAccess i.fields s).toNat ∧
        ((i.op = .load ∧ e = .addressFault (addressOfAccess i.fields s) .load left) ∨
          (i.op = .store ∧ e = .addressFault (addressOfAccess i.fields s) .store left)) ∧
        OnlyPcAdvances s left ∧ left.cc = szp (addressOfAccess i.fields s) ∧ SameMemory s left ∧
        left.deviceLog = s'.deviceLog ∧ left.runState = .running ∧
        left.events = s.events ++ [{ addr := s.readReg 15#4, word := w, instr := i }]))

/-- R93: exactly one event for a step that gets past decode, even if the instruction is skipped or its data access
fails; none for any other step. The events stand in State by the model's choice (assumption 8). -/
def Obligations.OneEventPerDecodedStep : Prop :=
  (∀ s t : State, s.runState = .running → step s = .next t →
    ∃ w s' i, s.fetch = some (w, s') ∧ decode s.cfg.aluExt w = .ok i ∧
      t.events = s.events ++ [{ addr := s.readReg 15#4, word := w, instr := i }]) ∧
  (∀ s t : State, s.runState = .halted → step s = .next t → t.events = s.events) ∧
  (∀ s left w n a, step s = .fault (.decodeError w n a left) → left.events = s.events) ∧
  (∀ s left a, step s = .fault (.addressFault a .fetch left) → left.events = s.events) ∧
  (∀ s left a, (step s = .fault (.addressFault a .load left) ∨ step s = .fault (.addressFault a .store left)) →
    ∃ w s' i, s.fetch = some (w, s') ∧ decode s.cfg.aluExt w = .ok i ∧
      left.events = s.events ++ [{ addr := s.readReg 15#4, word := w, instr := i }])

/-- R43, R50: the device sees one read for a fetch in the window, then one access for an executed LOAD or STORE with its
address in the window, and nothing else. The log stands in State by the model's choice (assumption 8). -/
def Obligations.DeviceSeesEachAccessOnce : Prop :=
  ∀ s t : State, s.runState = .running → step s = .next t →
    ∃ w s' i fetches accesses, s.fetch = some (w, s') ∧ decode s.cfg.aluExt w = .ok i ∧
      t.deviceLog = s.deviceLog ++ fetches ++ accesses ∧
      (IsWindow s.cfg (s.readReg 15#4) → fetches = [.read (s.readReg 15#4) w]) ∧
      (¬IsWindow s.cfg (s.readReg 15#4) → fetches = []) ∧
      (Executed i.fields s → i.op = .load → IsWindow s.cfg (addressOfAccess i.fields s) →
        ∃ v, accesses = [.read (addressOfAccess i.fields s) v]) ∧
      (Executed i.fields s → i.op = .store → IsWindow s.cfg (addressOfAccess i.fields s) →
        ∃ v, accesses = [.write (addressOfAccess i.fields s) v]) ∧
      (¬(Executed i.fields s ∧ (i.op = .load ∨ i.op = .store) ∧ IsWindow s.cfg (addressOfAccess i.fields s)) →
        accesses = [])

/-! ## The invariant and reset -/

/-- Every step, from every good state, leaves a good state and the same parameters. -/
def Obligations.StepKeepsGoodState : Prop :=
  ∀ s t : State, GoodState s → step s = .next t → GoodState t ∧ t.cfg = s.cfg

/-- The state after reset is good. -/
def Obligations.ResetIsAGoodState : Prop := GoodState State.reset

/-- The host's operations, from a good state, leave a good state, and so does a fault. That the loader leaves memory as it
is at an address in the window or outside memory, which the clauses on `loadWord` and `loadProgram` rest on, is the
model's choice (assumption 18); so is that a fault carries a state (assumption 6). -/
def Obligations.HostOperationsKeepGoodState : Prop :=
  ∀ s : State, GoodState s →
    GoodState (hostReset s) ∧ (∀ a, GoodState (startRun a s)) ∧ (∀ a v, GoodState (loadWord s a v)) ∧
      (∀ base ws, GoodState (loadProgram s base ws)) ∧ (∀ e, step s = .fault e → GoodState e.left)

/-- The spec's own inference in spec/10_state.md section 4, (a) and (b), and in spec/70_reset_and_hazards.md section 3, of
the machine's predicate check and of `exec` for every instruction: in a good state some flag is set, the mask ALWAYS runs
the instruction, NEVER skips it, and with all four flags set every mask but NEVER runs it. A mask fails the check exactly
when it names no flag that is set. -/
def Obligations.AlwaysAndNeverMasks : Prop :=
  ∀ (s : State) (i : Instr), GoodState s →
    s.cc ≠ 0#4 ∧
    (i.fields.cond = 15#4 → executes i.fields s = true ∧ LeavesAluFlags i s) ∧
    (i.fields.cond = 0#4 → executes i.fields s = false ∧ ∃ t, exec i s = .next t ∧ SkipEffect s t) ∧
    (s.cc = 15#4 → i.fields.cond ≠ 0#4 → executes i.fields s = true ∧ LeavesAluFlags i s) ∧
    (executes i.fields s = false ↔ ∀ k, ¬(s.cc.getLsbD k = true ∧ i.fields.cond.getLsbD k = true))

/-- R170, R171: what reset leaves, at power-up and as the host's operation on a used machine. That the host's reset keeps
the device's log, its answers to come and the parameters is the model's choice (assumptions 3, 4, 8 and 9): the spec only
calls the device no part of the CORE. -/
def Obligations.ResetValues : Prop :=
  ((∀ r, State.reset.readReg r = 0#32) ∧ State.reset.cc = 15#4 ∧ State.reset.runState = .running) ∧
  (∀ s : State, (∀ r, (hostReset s).readReg r = 0#32) ∧ (hostReset s).cc = 15#4 ∧
    (hostReset s).runState = .running ∧ (hostReset s).mem = s.mem ∧ SameDevice s (hostReset s) ∧
    (hostReset s).cfg = s.cfg)

/-- R173: `run` sets the program counter and the run state, touches nothing else, and then steps until Halted or a
fatal error. The bound on the number of steps is the model's (assumption 16), and so is that the device's log and answers
stand in State (assumptions 4 and 8). -/
def Obligations.RunStartsAndThenSteps : Prop :=
  (∀ (a : Word) (s : State),
    (∀ r, (startRun a s).readReg r = if r = 15#4 then a else s.readReg r) ∧
      (startRun a s).runState = .running ∧ (startRun a s).cc = s.cc ∧ (startRun a s).mem = s.mem ∧
      SameDevice s (startRun a s)) ∧
  (∀ (n : Nat) (a : Word) (s t : State), step (startRun a s) = .next t → run (n + 1) a s = runLoop n t) ∧
  (∀ (n : Nat) (a : Word) (s : State) (e : Fault), step (startRun a s) = .fault e → run (n + 1) a s = .fault e) ∧
  (∀ (n : Nat) (s : State), EndedNormally s → runLoop n s = .next s)

/-- R176: a running machine ends only by an executed HALT, and then with the program counter one past it and Z. -/
def Obligations.RunEndsOnlyByHalt : Prop :=
  ∀ s t : State, s.runState = .running → step s = .next t → EndedNormally t →
    t.readReg 15#4 = s.readReg 15#4 + 1#32 ∧ t.cc = 2#4 ∧
      ∃ w s' f, s.fetch = some (w, s') ∧ decode s.cfg.aluExt w = .ok (.halt f) ∧ Executed f s

/-! ## Memory (spec/20_memory.md) -/

/-- R45: the three branches of `MemRead`. -/
def Obligations.MemReadBranches : Prop :=
  ∀ (s : State) (a : Word),
    (s.cfg.memWords ≤ a.toNat → s.memRead a = none) ∧
    (IsWindow s.cfg a → ∃ v t, s.memRead a = some (v, t) ∧ t.deviceLog = s.deviceLog ++ [.read a v] ∧
      (∀ r, t.readReg r = s.readReg r) ∧ t.cc = s.cc ∧ SameMemory s t ∧ SameControl s t) ∧
    (IsPlain s.cfg a → s.memRead a = some (s.mem.read a.toNat, s))

/-- R46: the three branches of `MemWrite`, and what a later read finds. -/
def Obligations.MemWriteThenRead : Prop :=
  ∀ (s : State) (a v : Word),
    (s.cfg.memWords ≤ a.toNat → s.memWrite a v = none) ∧
    (IsWindow s.cfg a → ∃ t, s.memWrite a v = some t ∧ t.deviceLog = s.deviceLog ++ [.write a v] ∧
      (∀ r, t.readReg r = s.readReg r) ∧ t.cc = s.cc ∧ SameMemory s t ∧ SameControl s t) ∧
    (IsPlain s.cfg a → ∃ t, s.memWrite a v = some t ∧ t.memRead a = some (v, t) ∧
      (∀ b, b ≠ a → IsPlain s.cfg b → t.memRead b = some (s.mem.read b.toNat, t)) ∧
      (∀ r, t.readReg r = s.readReg r) ∧ t.cc = s.cc ∧ SameDevice s t ∧ SameControl s t)

/-- R56: the word an executed STORE puts in plain memory is what the next fetch from there finds, the very next one
included. -/
def Obligations.StoreIsSeenByTheNextFetch : Prop :=
  ∀ (f : Fields) (s t : State), Executed f s → IsPlain s.cfg (addressOfAccess f s) → exec (.store f) s = .next t →
    (startRun (addressOfAccess f s) t).fetch =
        some (if f.target = 15#4 then s.readReg 15#4 + 1#32 else s.readReg f.target,
          startRun (addressOfAccess f s) t) ∧
      (s.readReg 15#4 + 1#32 = addressOfAccess f s →
        t.fetch = some (if f.target = 15#4 then s.readReg 15#4 + 1#32 else s.readReg f.target, t))

/-- The device answers with the run's words in their order; when they are used up, with some word (the model's choice,
assumption 4, for a word spec/00_scope.md section 4 leaves to the device). -/
def Obligations.DeviceAnswersComeFromTheRun : Prop :=
  ∀ (f : Fields) (s : State), Executed f s → IsWindow s.cfg (addressOfAccess f s) →
    (∀ (v : Word) (rest : List Word), s.deviceIn = v :: rest →
      ∃ t, exec (.load f) s = .next t ∧ RegsAfterWrite s t f.target v ∧ t.deviceIn = rest ∧
        t.deviceLog = s.deviceLog ++ [.read (addressOfAccess f s) v]) ∧
    (s.deviceIn = [] →
      ∃ t v, exec (.load f) s = .next t ∧ RegsAfterWrite s t f.target v ∧ t.deviceIn = [] ∧ t.draws = s.draws + 1 ∧
        t.deviceLog = s.deviceLog ++ [.read (addressOfAccess f s) v])

/-- R174: a word the host loads at a plain address is what a run started there fetches. -/
def Obligations.LoadedWordIsFetched : Prop :=
  ∀ (s : State) (a v : Word), IsPlain s.cfg a →
    (startRun a (loadWord s a v)).fetch = some (v, startRun a (loadWord s a v)) ∧
      ∀ b, b ≠ a.toNat → (loadWord s a v).mem.read b = s.mem.read b

/-- The word the host's interface places is the one the next step fetches (the model's choice, assumption 10), in plain
memory and in the window. -/
def Obligations.PlacedWordIsFetchedNext : Prop :=
  ∀ (s : State) (w : Word), (s.readReg 15#4).toNat < s.cfg.memWords →
    (s.withFetchWord 32 w.toNat).runState = .running ∧
      (∀ r, (s.withFetchWord 32 w.toNat).readReg r = s.readReg r) ∧ (s.withFetchWord 32 w.toNat).cc = s.cc ∧
      ∃ s', (s.withFetchWord 32 w.toNat).fetch = some (w, s')

/-! ## Register 15 and jumps (spec/44_control.md, spec/30_encoding.md section 7) -/

/-- R142: the relative jump lands at `wrap(a + k)`, whatever `k`. -/
def Obligations.RelativeJumpLands : Prop :=
  ∀ (c : FlagMask) (k : Int) (s : State), Executed ⟨c, 15#4, 0#4, 15#4, k⟩ s →
    ∃ t, exec (.add ⟨c, 15#4, 0#4, 15#4, k⟩) s = .next t ∧
      t.readReg 15#4 = BitVec.ofInt 32 ((s.readReg 15#4).toNat + k) ∧
      (∀ r, r ≠ 15#4 → t.readReg r = s.readReg r) ∧ t.cc = szp (t.readReg 15#4)

/-- R84, R85: the symbolic forms, assembled, decoded and executed at their own address, reach their label; the base of
the offset is that address (spec/90_conflicts.md C1). The JUMP lands there; the LOAD reads the label's word and the STORE
writes it, for a label in plain memory, in the window and outside memory. The log of the device is the model's
(assumption 8). -/
def Obligations.SymbolicFormsReachTheirLabel : Prop :=
  ∀ (c : FlagMask) (r : RegIdx) (here there : Nat) (s : State) (v : Word), here < 2 ^ 32 → there < 2 ^ 32 →
    -512 ≤ (there : Int) - here → (there : Int) - here ≤ 511 →
    s.readReg 15#4 = BitVec.ofNat 32 here → Executed (relativeFields c r here there) s →
    v = (if r = 15#4 then BitVec.ofNat 32 here + 1#32 else s.readReg r) →
      decode s.cfg.aluExt (encode (jumpTo c here there)) = .ok (jumpTo c here there) ∧
      decode s.cfg.aluExt (encode (loadFrom c r here there)) = .ok (loadFrom c r here there) ∧
      decode s.cfg.aluExt (encode (storeTo c r here there)) = .ok (storeTo c r here there) ∧
      (∃ t, exec (jumpTo c here there) s = .next t ∧ t.readReg 15#4 = BitVec.ofNat 32 there) ∧
      addressOfAccess (loadFrom c r here there).fields s = BitVec.ofNat 32 there ∧
      addressOfAccess (storeTo c r here there).fields s = BitVec.ofNat 32 there ∧
      (IsPlain s.cfg (BitVec.ofNat 32 there) →
        (∃ t, exec (loadFrom c r here there) s = .next t ∧ RegsAfterWrite s t r (s.mem.read there)) ∧
        (∃ t, exec (storeTo c r here there) s = .next t ∧ t.mem.read there = v ∧
          ∀ a, a ≠ there → t.mem.read a = s.mem.read a)) ∧
      (IsWindow s.cfg (BitVec.ofNat 32 there) →
        (∃ t w, exec (loadFrom c r here there) s = .next t ∧ RegsAfterWrite s t r w ∧
          t.deviceLog = s.deviceLog ++ [.read (BitVec.ofNat 32 there) w]) ∧
        (∃ t, exec (storeTo c r here there) s = .next t ∧ SameMemory s t ∧
          t.deviceLog = s.deviceLog ++ [.write (BitVec.ofNat 32 there) v])) ∧
      (s.cfg.memWords ≤ there →
        (∃ left, exec (loadFrom c r here there) s = .fault (.addressFault (BitVec.ofNat 32 there) .load left)) ∧
        (∃ left, exec (storeTo c r here there) s = .fault (.addressFault (BitVec.ofNat 32 there) .store left)))

/-- R101, R102: register 15 as a source is the instruction's own address; as STORE data it is the next one's. -/
def Obligations.RegisterFifteenInsideAStep : Prop :=
  (∀ (c : FlagMask) (d : RegIdx) (k : Int) (s : State), d ≠ 0#4 → d ≠ 15#4 → Executed ⟨c, d, 15#4, 0#4, k⟩ s →
    ∃ t, exec (.add ⟨c, d, 15#4, 0#4, k⟩) s = .next t ∧
      t.readReg d = s.readReg 15#4 + BitVec.ofInt 32 k ∧ t.readReg 15#4 = s.readReg 15#4 + 1#32) ∧
  (∀ (c : FlagMask) (k : Int) (s : State), Executed ⟨c, 15#4, 15#4, 0#4, k⟩ s →
    IsPlain s.cfg (s.readReg 15#4 + BitVec.ofInt 32 k) →
    ∃ t, exec (.store ⟨c, 15#4, 15#4, 0#4, k⟩) s = .next t ∧
      t.mem.read (s.readReg 15#4 + BitVec.ofInt 32 k).toNat = s.readReg 15#4 + 1#32)

/-- R115's compare: with register 0 as target and no overflow, SUB writes no register and leaves M, Z or P for less,
equal or greater, signed. -/
def Obligations.SubComparesSigned : Prop :=
  ∀ (c : FlagMask) (a b : RegIdx) (s : State), Executed ⟨c, 0#4, a, b, 0⟩ s →
    -2 ^ 31 ≤ (s.readReg a).toInt - (s.readReg b).toInt → (s.readReg a).toInt - (s.readReg b).toInt < 2 ^ 31 →
      ∃ t, exec (.sub ⟨c, 0#4, a, b, 0⟩) s = .next t ∧ OnlyPcAdvances s t ∧
        t.cc = if (s.readReg a).toInt < (s.readReg b).toInt then 1#4
          else if (s.readReg a).toInt = (s.readReg b).toInt then 2#4 else 4#4

/-- R86: the address pass 1 gives a label is the one pass 2 puts the line's word at. R86 says that label names are unique;
that a name which labels two lines means the first of them, which the statement allows for, is the model's choice
(assumption 13). -/
def Obligations.LabelsAgreeInBothPasses : Prop :=
  ∀ (before after : List Line) (l : Line) (name : String), l.label = some name →
    (∀ k ∈ before, k.label ≠ some name) →
      addressOf (symbolTable 0 (before ++ l :: after)) name = some (before.map Line.size).sum ∧
      ∀ w, emitWord (symbolTable 0 (before ++ l :: after)) (before.map Line.size).sum l.body = some w →
        ((before.map Line.size).sum, w) ∈ assemble (before ++ l :: after)

/-- R79, R81: the canonical text of a representable instruction reads back as that instruction, under both settings of
`ALU_EXT`. The spec leaves white space open (assumption 13); the canonical text has one space, after its mnemonic. -/
def Obligations.CanonicalTextIsRead : Prop :=
  ∀ (ext : Bool) (i : Instr), i.wellFormed ext = true →
    readLine ext (canonicalText i).toList = some ⟨none, .full i⟩
end

