-- ==== Sys2Proof/Laws/Memory.lean ====
section
/-! SUPPORT. Reads after writes of plain memory, and the canonical form every memory operation keeps (spec/20_memory.md R45, R46,
R50). The read laws hold of every list, canonical or not. -/

namespace Sys2Proof.Machine

/-- A new entry is found where no entry of its address stood before. -/
theorem Memory.read_place_self (m : Memory) (a : Nat) (v : Word) (h : ∀ c ∈ m, c.1 ≠ a) :
    Memory.read (Memory.place m a v) a = v := by
  induction m with
  | nil => simp [Memory.place, Memory.read]
  | cons c m ih =>
    obtain ⟨b, w⟩ := c
    have hb : a ≠ b := fun e => h (b, w) (by simp) e.symm
    have hm : ∀ c ∈ m, c.1 ≠ a := fun c hc => h c (by simp [hc])
    unfold Memory.place
    split
    · simp [Memory.read]
    · simp [Memory.read, hb, ih hm]

/-- A new entry changes no other address. -/
theorem Memory.read_place_other (m : Memory) (a b : Nat) (v : Word) (h : b ≠ a) :
    Memory.read (Memory.place m a v) b = Memory.read m b := by
  induction m with
  | nil => simp [Memory.place, Memory.read, h]
  | cons c m ih =>
    obtain ⟨d, w⟩ := c
    unfold Memory.place
    split
    · simp [Memory.read, h]
    · simp [Memory.read, ih]

/-- An address no entry names reads as unlisted. -/
theorem Memory.read_absent (m : Memory) (a : Nat) (h : ∀ c ∈ m, c.1 ≠ a) : Memory.read m a = Memory.unlisted := by
  induction m with
  | nil => rfl
  | cons c m ih =>
    obtain ⟨b, w⟩ := c
    have hb : a ≠ b := fun e => h (b, w) (by simp) e.symm
    have hm : ∀ c ∈ m, c.1 ≠ a := fun c hc => h c (by simp [hc])
    simp [Memory.read, hb, ih hm]

/-- Taking an address's entries out changes no other address. -/
theorem Memory.read_erase_other (m : Memory) (a b : Nat) (h : b ≠ a) :
    Memory.read (m.filter fun c => c.1 != a) b = Memory.read m b := by
  induction m with
  | nil => rfl
  | cons c m ih =>
    obtain ⟨d, w⟩ := c
    by_cases hd : d = a
    · have hbd : b ≠ d := fun e => h (e.trans hd)
      simp [hd, Memory.read, h, ih]
    · simp [hd, Memory.read, ih]

/-- R46, R50: a read of the address just written gives the word written. -/
theorem Memory.read_write_self (m : Memory) (a : Nat) (v : Word) : Memory.read (Memory.write m a v) a = v := by
  have habs : ∀ c ∈ m.filter (fun c => c.1 != a), c.1 ≠ a := fun c hc => by simpa using (List.mem_filter.mp hc).2
  unfold Memory.write
  by_cases hv : v = Memory.unlisted
  · simp only [hv, if_true]
    exact Memory.read_absent _ _ habs
  · simp only [hv, if_false]
    exact Memory.read_place_self _ _ _ habs

/-- R46, R50: every other address reads as before. -/
theorem Memory.read_write_other (m : Memory) (a b : Nat) (v : Word) (h : b ≠ a) :
    Memory.read (Memory.write m a v) b = Memory.read m b := by
  unfold Memory.write
  by_cases hv : v = Memory.unlisted
  · simp only [hv, if_true]
    exact Memory.read_erase_other m a b h
  · simp only [hv, if_false]
    rw [Memory.read_place_other _ _ _ _ h, Memory.read_erase_other _ _ _ h]

/-- A list whose entries rise after `b` still does after a lower `b`. -/
theorem Memory.wfAfter_lower {b b' : Nat} (h : b ≤ b') (m : Memory) (hm : Memory.wfAfter b' m = true) :
    Memory.wfAfter b m = true := by
  cases m with
  | nil => rfl
  | cons c m =>
    obtain ⟨a, v⟩ := c
    simp only [Memory.wfAfter, Bool.and_eq_true, decide_eq_true_eq] at hm ⊢
    exact ⟨⟨by omega, hm.1.2⟩, hm.2⟩

/-- Taking an address's entries out keeps the rising form. -/
theorem Memory.wfAfter_erase (a b : Nat) (m : Memory) (hm : Memory.wfAfter b m = true) :
    Memory.wfAfter b (m.filter fun c => c.1 != a) = true := by
  induction m generalizing b with
  | nil => rfl
  | cons c m ih =>
    obtain ⟨d, w⟩ := c
    simp only [Memory.wfAfter, Bool.and_eq_true, decide_eq_true_eq] at hm
    by_cases hd : d = a
    · simpa [hd] using Memory.wfAfter_lower (by omega) _ (ih d hm.2)
    · simp [hd, Memory.wfAfter, hm.1.1, by simpa using hm.1.2, ih d hm.2]

/-- Putting in an entry above `b`, where no entry of its address stands, keeps the rising form. -/
theorem Memory.wfAfter_place (a b : Nat) (v : Word) (m : Memory) (hb : b < a) (hv : v ≠ Memory.unlisted)
    (habs : ∀ c ∈ m, c.1 ≠ a) (hm : Memory.wfAfter b m = true) :
    Memory.wfAfter b (Memory.place m a v) = true := by
  induction m generalizing b with
  | nil => simp [Memory.place, Memory.wfAfter, hb, hv]
  | cons c m ih =>
    obtain ⟨d, w⟩ := c
    have hda : d ≠ a := habs (d, w) (by simp)
    have hm' : ∀ c ∈ m, c.1 ≠ a := fun c hc => habs c (by simp [hc])
    simp only [Memory.wfAfter, Bool.and_eq_true, decide_eq_true_eq] at hm
    unfold Memory.place
    split
    · simp [Memory.wfAfter, *]
    · simp [Memory.wfAfter, hm.1.1, by simpa using hm.1.2, ih d (by omega) hm' hm.2]

/-- The canonical form is the rising form after a bound that stands below every address. -/
theorem Memory.wf_of_wfAfter (b : Nat) (m : Memory) (hm : Memory.wfAfter b m = true) : Memory.wf m = true := by
  cases m with
  | nil => rfl
  | cons c m =>
    obtain ⟨a, v⟩ := c
    simp only [Memory.wfAfter, Bool.and_eq_true] at hm
    simp only [Memory.wf, Bool.and_eq_true]
    exact ⟨hm.1.2, hm.2⟩

/-- Taking an address's entries out keeps the canonical form. -/
theorem Memory.wf_erase (a : Nat) (m : Memory) (hm : Memory.wf m = true) :
    Memory.wf (m.filter fun c => c.1 != a) = true := by
  cases m with
  | nil => rfl
  | cons c m =>
    obtain ⟨d, w⟩ := c
    simp only [Memory.wf, Bool.and_eq_true] at hm
    by_cases hd : d = a
    · simpa [hd] using Memory.wf_of_wfAfter d _ (Memory.wfAfter_erase a d m hm.2)
    · simp [hd, Memory.wf, by simpa using hm.1, Memory.wfAfter_erase a d m hm.2]

/-- Putting in an entry where no entry of its address stands keeps the canonical form. -/
theorem Memory.wf_place (a : Nat) (v : Word) (m : Memory) (hv : v ≠ Memory.unlisted) (habs : ∀ c ∈ m, c.1 ≠ a)
    (hm : Memory.wf m = true) : Memory.wf (Memory.place m a v) = true := by
  cases m with
  | nil => simp [Memory.place, Memory.wf, Memory.wfAfter, hv]
  | cons c m =>
    obtain ⟨d, w⟩ := c
    have hda : d ≠ a := habs (d, w) (by simp)
    have hm' : ∀ c ∈ m, c.1 ≠ a := fun c hc => habs c (by simp [hc])
    simp only [Memory.wf, Bool.and_eq_true] at hm
    unfold Memory.place
    split
    · simp [Memory.wf, Memory.wfAfter, *]
    · simp [Memory.wf, by simpa using hm.1, Memory.wfAfter_place a d v m (by omega) hv hm' hm.2]

/-- Every write keeps the canonical form. -/
theorem Memory.wf_write (m : Memory) (a : Nat) (v : Word) (hm : Memory.wf m = true) :
    Memory.wf (Memory.write m a v) = true := by
  have habs : ∀ c ∈ m.filter (fun c => c.1 != a), c.1 ≠ a := fun c hc => by simpa using (List.mem_filter.mp hc).2
  unfold Memory.write
  by_cases hv : v = Memory.unlisted
  · simp only [hv, if_true]
    exact Memory.wf_erase a m hm
  · simp only [hv, if_false]
    exact Memory.wf_place a v _ hv habs (Memory.wf_erase a m hm)

/-- An entry of a memory after a write is the entry written or an entry from before. -/
theorem Memory.mem_write {m : Memory} {a : Nat} {v : Word} {c : Nat × Word} (h : c ∈ Memory.write m a v) :
    c = (a, v) ∨ c ∈ m := by
  have hplace : ∀ l : Memory, c ∈ Memory.place l a v → c = (a, v) ∨ c ∈ l := by
    intro l
    induction l with
    | nil => intro hc; simpa [Memory.place] using hc
    | cons d l ih =>
      intro hc
      unfold Memory.place at hc
      split at hc
      · simpa using hc
      · rcases List.mem_cons.mp hc with rfl | hc
        · simp
        · rcases ih hc with e | e
          · exact .inl e
          · exact .inr (by simp [e])
  unfold Memory.write at h
  by_cases hv : v = Memory.unlisted
  · simp only [hv, if_true] at h
    exact .inr (List.mem_filter.mp h).1
  · simp only [hv, if_false] at h
    rcases hplace _ h with e | e
    · exact .inl e
    · exact .inr (List.mem_filter.mp e).1

/-- The memory after reset is canonical. -/
theorem State.reset_mem_wf : Memory.wf State.reset.mem = true := rfl

end Sys2Proof.Machine
end

