-- ==== Sys2Proof/Laws/State.lean ====
section
/-! SUPPORT. What each field of State is after each named update: one lemma a field and update, each true by rfl. -/

namespace Sys2Proof.Machine

variable (s : State)

/-! ## `writeReg` -/

@[simp] theorem State.writeReg_cc (i : RegIdx) (v : Word) : (s.writeReg i v).cc = s.cc := rfl
@[simp] theorem State.writeReg_runState (i : RegIdx) (v : Word) : (s.writeReg i v).runState = s.runState := rfl
@[simp] theorem State.writeReg_mem (i : RegIdx) (v : Word) : (s.writeReg i v).mem = s.mem := rfl
@[simp] theorem State.writeReg_cfg (i : RegIdx) (v : Word) : (s.writeReg i v).cfg = s.cfg := rfl
@[simp] theorem State.writeReg_deviceIn (i : RegIdx) (v : Word) : (s.writeReg i v).deviceIn = s.deviceIn := rfl
@[simp] theorem State.writeReg_draws (i : RegIdx) (v : Word) : (s.writeReg i v).draws = s.draws := rfl
@[simp] theorem State.writeReg_deviceLog (i : RegIdx) (v : Word) : (s.writeReg i v).deviceLog = s.deviceLog := rfl
@[simp] theorem State.writeReg_events (i : RegIdx) (v : Word) : (s.writeReg i v).events = s.events := rfl

/-! ## `advance` -/

@[simp] theorem State.advance_cc : s.advance.cc = s.cc := rfl
@[simp] theorem State.advance_runState : s.advance.runState = s.runState := rfl
@[simp] theorem State.advance_mem : s.advance.mem = s.mem := rfl
@[simp] theorem State.advance_cfg : s.advance.cfg = s.cfg := rfl
@[simp] theorem State.advance_deviceIn : s.advance.deviceIn = s.deviceIn := rfl
@[simp] theorem State.advance_draws : s.advance.draws = s.draws := rfl
@[simp] theorem State.advance_deviceLog : s.advance.deviceLog = s.deviceLog := rfl
@[simp] theorem State.advance_events : s.advance.events = s.events := rfl

/-! ## `setFlags` -/

@[simp] theorem State.setFlags_regs (c : FlagMask) : (s.setFlags c).regs = s.regs := rfl
@[simp] theorem State.setFlags_cc (c : FlagMask) : (s.setFlags c).cc = c := rfl
@[simp] theorem State.setFlags_runState (c : FlagMask) : (s.setFlags c).runState = s.runState := rfl
@[simp] theorem State.setFlags_mem (c : FlagMask) : (s.setFlags c).mem = s.mem := rfl
@[simp] theorem State.setFlags_cfg (c : FlagMask) : (s.setFlags c).cfg = s.cfg := rfl
@[simp] theorem State.setFlags_deviceIn (c : FlagMask) : (s.setFlags c).deviceIn = s.deviceIn := rfl
@[simp] theorem State.setFlags_draws (c : FlagMask) : (s.setFlags c).draws = s.draws := rfl
@[simp] theorem State.setFlags_deviceLog (c : FlagMask) : (s.setFlags c).deviceLog = s.deviceLog := rfl
@[simp] theorem State.setFlags_events (c : FlagMask) : (s.setFlags c).events = s.events := rfl

/-! ## `setRun` -/

@[simp] theorem State.setRun_regs (r : RunState) : (s.setRun r).regs = s.regs := rfl
@[simp] theorem State.setRun_cc (r : RunState) : (s.setRun r).cc = s.cc := rfl
@[simp] theorem State.setRun_runState (r : RunState) : (s.setRun r).runState = r := rfl
@[simp] theorem State.setRun_mem (r : RunState) : (s.setRun r).mem = s.mem := rfl
@[simp] theorem State.setRun_cfg (r : RunState) : (s.setRun r).cfg = s.cfg := rfl
@[simp] theorem State.setRun_deviceIn (r : RunState) : (s.setRun r).deviceIn = s.deviceIn := rfl
@[simp] theorem State.setRun_draws (r : RunState) : (s.setRun r).draws = s.draws := rfl
@[simp] theorem State.setRun_deviceLog (r : RunState) : (s.setRun r).deviceLog = s.deviceLog := rfl
@[simp] theorem State.setRun_events (r : RunState) : (s.setRun r).events = s.events := rfl

/-! ## `emit` -/

@[simp] theorem State.emit_regs (e : Event) : (s.emit e).regs = s.regs := rfl
@[simp] theorem State.emit_cc (e : Event) : (s.emit e).cc = s.cc := rfl
@[simp] theorem State.emit_runState (e : Event) : (s.emit e).runState = s.runState := rfl
@[simp] theorem State.emit_mem (e : Event) : (s.emit e).mem = s.mem := rfl
@[simp] theorem State.emit_cfg (e : Event) : (s.emit e).cfg = s.cfg := rfl
@[simp] theorem State.emit_deviceIn (e : Event) : (s.emit e).deviceIn = s.deviceIn := rfl
@[simp] theorem State.emit_draws (e : Event) : (s.emit e).draws = s.draws := rfl
@[simp] theorem State.emit_deviceLog (e : Event) : (s.emit e).deviceLog = s.deviceLog := rfl
@[simp] theorem State.emit_events (e : Event) : (s.emit e).events = s.events ++ [e] := rfl

/-! ## `retire` -/

@[simp] theorem State.retire_regs (c : FlagMask) : (s.retire c).regs = s.advance.regs := rfl
@[simp] theorem State.retire_cc (c : FlagMask) : (s.retire c).cc = c := rfl
@[simp] theorem State.retire_runState (c : FlagMask) : (s.retire c).runState = s.runState := rfl
@[simp] theorem State.retire_mem (c : FlagMask) : (s.retire c).mem = s.mem := rfl
@[simp] theorem State.retire_cfg (c : FlagMask) : (s.retire c).cfg = s.cfg := rfl
@[simp] theorem State.retire_deviceIn (c : FlagMask) : (s.retire c).deviceIn = s.deviceIn := rfl
@[simp] theorem State.retire_draws (c : FlagMask) : (s.retire c).draws = s.draws := rfl
@[simp] theorem State.retire_deviceLog (c : FlagMask) : (s.retire c).deviceLog = s.deviceLog := rfl
@[simp] theorem State.retire_events (c : FlagMask) : (s.retire c).events = s.events := rfl

/-! ## `deviceRead` -/

@[simp] theorem State.deviceRead_fst (a : Word) : (s.deviceRead a).1 = s.deviceAnswer := rfl
@[simp] theorem State.deviceRead_regs (a : Word) : (s.deviceRead a).2.regs = s.regs := rfl
@[simp] theorem State.deviceRead_cc (a : Word) : (s.deviceRead a).2.cc = s.cc := rfl
@[simp] theorem State.deviceRead_runState (a : Word) : (s.deviceRead a).2.runState = s.runState := rfl
@[simp] theorem State.deviceRead_mem (a : Word) : (s.deviceRead a).2.mem = s.mem := rfl
@[simp] theorem State.deviceRead_cfg (a : Word) : (s.deviceRead a).2.cfg = s.cfg := rfl
@[simp] theorem State.deviceRead_deviceIn (a : Word) : (s.deviceRead a).2.deviceIn = s.deviceIn.tail := rfl
@[simp] theorem State.deviceRead_draws (a : Word) : (s.deviceRead a).2.draws = s.draws + 1 := rfl
@[simp] theorem State.deviceRead_deviceLog (a : Word) :
    (s.deviceRead a).2.deviceLog = s.deviceLog ++ [.read a s.deviceAnswer] := rfl
@[simp] theorem State.deviceRead_events (a : Word) : (s.deviceRead a).2.events = s.events := rfl

/-! ## `deviceWrite` -/

@[simp] theorem State.deviceWrite_regs (a v : Word) : (s.deviceWrite a v).regs = s.regs := rfl
@[simp] theorem State.deviceWrite_cc (a v : Word) : (s.deviceWrite a v).cc = s.cc := rfl
@[simp] theorem State.deviceWrite_runState (a v : Word) : (s.deviceWrite a v).runState = s.runState := rfl
@[simp] theorem State.deviceWrite_mem (a v : Word) : (s.deviceWrite a v).mem = s.mem := rfl
@[simp] theorem State.deviceWrite_cfg (a v : Word) : (s.deviceWrite a v).cfg = s.cfg := rfl
@[simp] theorem State.deviceWrite_deviceIn (a v : Word) : (s.deviceWrite a v).deviceIn = s.deviceIn := rfl
@[simp] theorem State.deviceWrite_draws (a v : Word) : (s.deviceWrite a v).draws = s.draws := rfl
@[simp] theorem State.deviceWrite_deviceLog (a v : Word) :
    (s.deviceWrite a v).deviceLog = s.deviceLog ++ [.write a v] := rfl
@[simp] theorem State.deviceWrite_events (a v : Word) : (s.deviceWrite a v).events = s.events := rfl

end Sys2Proof.Machine
end

