-- ==== Sys2Proof/Laws/Registers.lean ====
section
/-! SUPPORT. Register reads after register writes (spec/10_state.md R22, R24, R25). -/

namespace Sys2Proof.Machine

variable (s : State)

/-- A register read depends on the register slots alone. -/
theorem State.readReg_congr {s t : State} (h : t.regs = s.regs) (i : RegIdx) : t.readReg i = s.readReg i := by
  unfold State.readReg
  rw [h]

/-- R22: register 0 reads 0. -/
@[simp] theorem State.readReg_zero : s.readReg 0#4 = 0#32 := rfl

/-- R22: what any register reads after a write of any register. -/
theorem State.readReg_writeReg (i j : RegIdx) (v : Word) :
    (s.writeReg i v).readReg j = if j = 0#4 then 0#32 else if j = i then v else s.readReg j := by
  by_cases hj : j = 0#4
  · simp [State.readReg, hj]
  · by_cases hi : i = 0#4
    · simp [State.readReg, State.writeReg, hj, hi]
    · by_cases hji : j = i
      · subst hji
        simp [State.readReg, State.writeReg, hj]
      · have hne : i.toNat ≠ j.toNat := fun h => hji (BitVec.eq_of_toNat_eq h).symm
        simp [State.readReg, State.writeReg, hj, hi, hji, hne]

/-- R25: what any register reads after the advance. -/
theorem State.readReg_advance (j : RegIdx) :
    s.advance.readReg j = if j = 15#4 then s.readReg 15#4 + 1#32 else s.readReg j := by
  unfold State.advance State.pc pcIdx
  rw [State.readReg_writeReg]
  by_cases hj : j = 0#4
  · simp [hj]
  · simp [hj]

/-- R25: the program counter after the advance. -/
@[simp] theorem State.advance_pc : s.advance.pc = s.pc + 1#32 := by
  show s.advance.readReg 15#4 = s.readReg 15#4 + 1#32
  rw [State.readReg_advance]
  rfl

@[simp] theorem State.readReg_setFlags (c : FlagMask) (j : RegIdx) : (s.setFlags c).readReg j = s.readReg j := rfl
@[simp] theorem State.readReg_setRun (r : RunState) (j : RegIdx) : (s.setRun r).readReg j = s.readReg j := rfl
@[simp] theorem State.readReg_emit (e : Event) (j : RegIdx) : (s.emit e).readReg j = s.readReg j := rfl
@[simp] theorem State.readReg_retire (c : FlagMask) (j : RegIdx) :
    (s.retire c).readReg j = s.advance.readReg j := rfl
@[simp] theorem State.readReg_deviceRead (a : Word) (j : RegIdx) : (s.deviceRead a).2.readReg j = s.readReg j := rfl
@[simp] theorem State.readReg_deviceWrite (a v : Word) (j : RegIdx) :
    (s.deviceWrite a v).readReg j = s.readReg j := rfl

/-- R25, R99, R102: what any register reads after the advance and a write of the target. -/
theorem State.readReg_retire_writeReg (c : FlagMask) (i j : RegIdx) (v : Word) :
    ((s.retire c).writeReg i v).readReg j =
      if j = 0#4 then 0#32 else if j = i then v else if j = 15#4 then s.readReg 15#4 + 1#32 else s.readReg j := by
  rw [State.readReg_writeReg, State.readReg_retire, State.readReg_advance]

/-- R22: slot 0 of the register file is never written. -/
theorem State.writeReg_slotZero (i : RegIdx) (v : Word) : (s.writeReg i v).regs[0] = s.regs[0] := by
  by_cases hi : i = 0#4
  · simp [State.writeReg, hi]
  · have hne : i.toNat ≠ 0 := fun h => hi (BitVec.eq_of_toNat_eq h)
    simp [State.writeReg, hi, hne]

/-- R22: the advance leaves slot 0 as it is. -/
theorem State.advance_slotZero : s.advance.regs[0] = s.regs[0] := State.writeReg_slotZero s pcIdx _

end Sys2Proof.Machine
end

