-- ==== Sys2Proof/Laws/Ops.lean ====
section
/-! SUPPORT. For each shared operation, once, everything it can do. -/

namespace Sys2Proof.Machine

/-! ## The address map -/

/-- R51: a plain address is valid and outside the window. -/
theorem plainAddr_iff (p : Params) (a : Word) :
    plainAddr p a = true ↔ validAddr p a = true ∧ inWindow p a = false := by
  simp [plainAddr]

/-- R41: validity is a bound on the unsigned address. -/
theorem validAddr_iff (p : Params) (a : Word) : validAddr p a = true ↔ a.toNat < p.memWords := by
  simp [validAddr]

/-- R44: the window is a closed range of unsigned addresses. -/
theorem inWindow_iff (p : Params) (a : Word) : inWindow p a = true ↔ p.mmioLo ≤ a.toNat ∧ a.toNat ≤ p.mmioHi := by
  simp [inWindow]

/-! ## `memRead` (R45) -/

/-- R45: a read fails exactly outside memory. -/
theorem State.memRead_eq_none (s : State) (a : Word) : s.memRead a = none ↔ validAddr s.cfg a = false := by
  unfold State.memRead
  cases validAddr s.cfg a <;> cases inWindow s.cfg a <;> simp

/-- R45: a read of a plain address gives its word and changes nothing. -/
theorem State.memRead_plain (s : State) (a : Word) (h : plainAddr s.cfg a = true) :
    s.memRead a = some (s.mem.read a.toNat, s) := by
  rw [plainAddr_iff] at h
  simp [State.memRead, h]

/-- R45: a read in the window is a device read. -/
theorem State.memRead_window (s : State) (a : Word) (hv : validAddr s.cfg a = true) (hw : inWindow s.cfg a = true) :
    s.memRead a = some (s.deviceRead a) := by
  simp [State.memRead, hv, hw]

/-- R45: everything a read can do. -/
theorem State.memRead_cases {s t : State} {a v : Word} (h : s.memRead a = some (v, t)) :
    validAddr s.cfg a = true ∧
      ((inWindow s.cfg a = false ∧ v = s.mem.read a.toNat ∧ t = s) ∨
        (inWindow s.cfg a = true ∧ v = s.deviceAnswer ∧ t = (s.deviceRead a).2)) := by
  unfold State.memRead at h
  cases hv : validAddr s.cfg a with
  | false => simp [hv] at h
  | true =>
    cases hw : inWindow s.cfg a with
    | false =>
      simp only [hv, hw, Bool.not_true, Bool.false_eq_true, if_false, Option.some.injEq, Prod.mk.injEq] at h
      exact ⟨rfl, .inl ⟨rfl, h.1.symm, h.2.symm⟩⟩
    | true =>
      simp only [hv, hw, Bool.not_true, Bool.false_eq_true, if_false, if_true, Option.some.injEq] at h
      exact ⟨rfl, .inr ⟨rfl, (congrArg Prod.fst h).symm, (congrArg Prod.snd h).symm⟩⟩

/-- R45: what no read changes. -/
theorem State.memRead_frame {s t : State} {a v : Word} (h : s.memRead a = some (v, t)) :
    t.regs = s.regs ∧ t.cc = s.cc ∧ t.runState = s.runState ∧ t.mem = s.mem ∧ t.cfg = s.cfg ∧ t.events = s.events := by
  rcases (State.memRead_cases h).2 with ⟨-, -, rfl⟩ | ⟨-, -, rfl⟩ <;> simp

/-! ## `memWrite` (R46) -/

/-- R46: a write fails exactly outside memory. -/
theorem State.memWrite_eq_none (s : State) (a v : Word) : s.memWrite a v = none ↔ validAddr s.cfg a = false := by
  unfold State.memWrite
  cases validAddr s.cfg a <;> cases inWindow s.cfg a <;> simp

/-- R46: everything a write can do. -/
theorem State.memWrite_cases {s t : State} {a v : Word} (h : s.memWrite a v = some t) :
    validAddr s.cfg a = true ∧
      ((inWindow s.cfg a = false ∧ t = { s with mem := s.mem.write a.toNat v }) ∨
        (inWindow s.cfg a = true ∧ t = s.deviceWrite a v)) := by
  unfold State.memWrite at h
  cases hv : validAddr s.cfg a with
  | false => simp [hv] at h
  | true =>
    cases hw : inWindow s.cfg a with
    | false =>
      simp only [hv, hw, Bool.not_true, Bool.false_eq_true, if_false, Option.some.injEq] at h
      exact ⟨rfl, .inl ⟨rfl, h.symm⟩⟩
    | true =>
      simp only [hv, hw, Bool.not_true, Bool.false_eq_true, if_false, if_true, Option.some.injEq] at h
      exact ⟨rfl, .inr ⟨rfl, h.symm⟩⟩

/-- R46: what no write changes. -/
theorem State.memWrite_frame {s t : State} {a v : Word} (h : s.memWrite a v = some t) :
    t.regs = s.regs ∧ t.cc = s.cc ∧ t.runState = s.runState ∧ t.cfg = s.cfg ∧ t.deviceIn = s.deviceIn ∧
      t.draws = s.draws ∧ t.events = s.events := by
  rcases (State.memWrite_cases h).2 with ⟨-, rfl⟩ | ⟨-, rfl⟩ <;> simp

/-! ## Predication and the meanings' shared shape (R94 to R100) -/

/-- R94: the predicate as a statement about the two masks. -/
theorem executes_iff (f : Fields) (s : State) : executes f s = true ↔ s.cc &&& f.cond ≠ 0#4 := by
  simp [executes, intersects]

/-- R95: a skipped instruction only advances. -/
theorem whenExecuted_skipped (f : Fields) (s : State) (body : Result) (h : executes f s = false) :
    whenExecuted f s body = .next s.advance := by
  simp [whenExecuted, h]

/-- R94: an executed instruction does its body. -/
theorem whenExecuted_executed (f : Fields) (s : State) (body : Result) (h : executes f s = true) :
    whenExecuted f s body = body := by
  simp [whenExecuted, h]

/-- R100: an executed ALU instruction answers one next state. -/
theorem execAlu_executed (alu : Word → Word → Word × FlagMask) (f : Fields) (s : State) (h : executes f s = true) :
    execAlu alu f s =
      .next ((s.retire (alu (operand1 f s) (operand2 f s)).2).writeReg f.target
        (alu (operand1 f s) (operand2 f s)).1) :=
  whenExecuted_executed f s _ h

/-- R130: the ALU's address for LOAD and STORE is the effective address. -/
theorem aluAddress_fst (f : Fields) (s : State) :
    (aluAddress (operand1 f s) (operand2 f s)).1 = effectiveAddr f s := rfl

/-- R133: the ALU's flags for LOAD and STORE are the address's. -/
theorem aluAddress_snd (f : Fields) (s : State) :
    (aluAddress (operand1 f s) (operand2 f s)).2 = szp (effectiveAddr f s) := rfl

/-- R131: everything an executed LOAD can do. -/
theorem execLoad_executed (f : Fields) (s : State) (h : executes f s = true) :
    execLoad f s =
      match (s.retire (szp (effectiveAddr f s))).memRead (effectiveAddr f s) with
      | none => raise (Fault.addressFault (effectiveAddr f s) .load) (s.retire (szp (effectiveAddr f s)))
      | some (v, t) => .next (t.writeReg f.target v) :=
  whenExecuted_executed f s _ h

/-- R132: everything an executed STORE can do. -/
theorem execStore_executed (f : Fields) (s : State) (h : executes f s = true) :
    execStore f s =
      match (s.retire (szp (effectiveAddr f s))).memWrite (effectiveAddr f s) (s.advance.readReg f.target) with
      | none => raise (Fault.addressFault (effectiveAddr f s) .store) (s.retire (szp (effectiveAddr f s)))
      | some t => .next t :=
  whenExecuted_executed f s _ h

/-- R140: everything an executed HALT can do. -/
theorem execHalt_executed (f : Fields) (s : State) (h : executes f s = true) :
    execHalt f s = .next ((s.retire flagZ).setRun .halted) :=
  whenExecuted_executed f s _ h

/-- R95: every skipped instruction only advances. -/
theorem exec_skipped (i : Instr) (s : State) (h : executes i.fields s = false) : exec i s = .next s.advance := by
  cases i <;> exact whenExecuted_skipped _ s _ h

/-- R100: which meaning an executed instruction other than LOAD, STORE and HALT has. -/
theorem exec_alu (i : Instr) (s : State) (h1 : i.op ≠ .load) (h2 : i.op ≠ .store) (h3 : i.op ≠ .halt) :
    exec i s = execAlu (aluOp i.op) i.fields s := by
  cases i <;> first | rfl | simp [Instr.op] at h1 h2 h3

/-! ## The step (R90) -/

/-- R104: a step while Halted. -/
theorem step_halted (s : State) (h : s.runState = .halted) : step s = .next s := by
  simp [step, cycle, h]

/-- R90 to R92: everything a step while Running can do. -/
theorem step_running (s : State) (h : s.runState = .running) :
    (s.fetch = none ∧ step s = .fault (Fault.addressFault s.pc .fetch s)) ∨
      (∃ w s' word op, s.fetch = some (w, s') ∧ decode s'.cfg.aluExt w = .error (.unassignedOpcode word op) ∧
        step s = .fault (Fault.decodeError word op s.pc s')) ∨
      (∃ w s' i, s.fetch = some (w, s') ∧ decode s'.cfg.aluExt w = .ok i ∧
        step s = exec i (s'.emit { addr := s.pc, word := w, instr := i })) := by
  unfold step cycle
  rw [h]
  cases hf : s.fetch with
  | none => exact .inl ⟨rfl, rfl⟩
  | some p =>
    obtain ⟨w, s'⟩ := p
    cases hd : decode s'.cfg.aluExt w with
    | error e =>
      obtain ⟨word, op⟩ := e
      exact .inr (.inl ⟨w, s', word, op, rfl, hd, by simp [hd, raise]⟩)
    | ok i => exact .inr (.inr ⟨w, s', i, rfl, hd, by simp [hd]⟩)

end Sys2Proof.Machine
end

