-- ==== Sys2Proof/Laws/PerInstr.lean ====
section
/-! SUPPORT. A law of each instruction's encoding, one lemma a constructor (spec/30_encoding.md R66, R72). -/

namespace Sys2Proof

/-- R61: what a whole-word mask keeps of a field's neighbours: the `op` field is not touched by the inserts below it. -/
theorem BitField.insert_shiftRight (F : BitField) (hw : F.lo + F.width ≤ 26)
    (v : Int) (w : Word) : F.insert v w >>> 26 = w >>> 26 := by
  apply BitVec.eq_of_getLsbD_eq
  intro k hk
  have hmask : ∀ n, n < 32 → F.mask.getLsbD n = true → n < F.width := by
    intro n hn h
    rw [BitField.mask, BitVec.getLsbD_ofNat, Nat.testBit_two_pow_sub_one] at h
    simpa [hn] using h
  have hp : F.pmask.getLsbD (26 + k) = false := by
    rw [BitField.pmask, BitVec.getLsbD_shiftLeft]
    by_cases hlt : 26 + k < 32
    · by_cases hm : F.mask.getLsbD (26 + k - F.lo) = true
      · have := hmask _ (by omega) hm
        omega
      · simp [hm]
    · simp [hlt]
  have hv : ((wrap v &&& F.mask) <<< F.lo).getLsbD (26 + k) = false := by
    rw [BitVec.getLsbD_shiftLeft, BitVec.getLsbD_and]
    by_cases hlt : 26 + k < 32
    · by_cases hm : F.mask.getLsbD (26 + k - F.lo) = true
      · have := hmask _ (by omega) hm
        omega
      · simp [hm]
    · simp [hlt]
  rw [BitVec.getLsbD_ushiftRight, BitVec.getLsbD_ushiftRight, BitField.insert, BitVec.getLsbD_or, hv,
    BitVec.getLsbD_and, BitVec.getLsbD_not, hp]
  by_cases hlt : 26 + k < 32
  · simp [hlt]
  · simp [BitVec.getLsbD_of_ge w (26 + k) (by omega)]

/-- R66, R77: the top six bits of an encoding are the op value's, whatever the other fields hold. -/
theorem encodeRaw_shiftRight (n c t a b o : Int) :
    encodeRaw n c t a b o >>> 26 = opField.insert n 0#32 >>> 26 := by
  unfold encodeRaw
  rw [offsetField.insert_shiftRight (by decide), src2Field.insert_shiftRight (by decide),
    src1Field.insert_shiftRight (by decide), targetField.insert_shiftRight (by decide),
    condField.insert_shiftRight (by decide)]

/-- R72: an opcode number fits the `op` field. -/
theorem opField_insert_number (op : Opcode) :
    opField.insert (op.number : Int) 0#32 >>> 26 = BitVec.ofNat 32 op.number := by
  cases op <;> decide

/-- R66, R72: the top six bits of an instruction's encoding are its opcode's number. -/
theorem encode_shiftRight (i : Instr) : encode i >>> 26 = BitVec.ofNat 32 i.op.number :=
  (encodeRaw_shiftRight _ _ _ _ _ _).trans (opField_insert_number i.op)

end Sys2Proof

namespace Sys2Proof.Laws.OpcodeField

/-- R66, R72: bits 31:26 of an instruction's encoding are its opcode's number. -/
def Statement (i : Instr) : Prop := (encode i) >>> 26 = BitVec.ofNat 32 i.op.number

theorem halt (f : Fields) : Statement (.halt f) := encode_shiftRight _
theorem load (f : Fields) : Statement (.load f) := encode_shiftRight _
theorem store (f : Fields) : Statement (.store f) := encode_shiftRight _
theorem add (f : Fields) : Statement (.add f) := encode_shiftRight _
theorem sub (f : Fields) : Statement (.sub f) := encode_shiftRight _
theorem mul (f : Fields) : Statement (.mul f) := encode_shiftRight _
theorem div (f : Fields) : Statement (.div f) := encode_shiftRight _
theorem and (f : Fields) : Statement (.and f) := encode_shiftRight _
theorem or (f : Fields) : Statement (.or f) := encode_shiftRight _
theorem xor (f : Fields) : Statement (.xor f) := encode_shiftRight _
theorem shl (f : Fields) : Statement (.shl f) := encode_shiftRight _
theorem shr (f : Fields) : Statement (.shr f) := encode_shiftRight _
theorem asr (f : Fields) : Statement (.asr f) := encode_shiftRight _

end Sys2Proof.Laws.OpcodeField
end

