-- ==== Sys2Proof/Tests/Slice0.lean ====
section
/-! SUPPORT. Tests: each expected value is spec/95_test_vectors.md's (the vector is named) or worked out by hand from the rule named.
The second half shows, for each obligation with hypotheses, a concrete state that meets them. -/

open Sys2Proof Sys2Proof.Machine

namespace Sys2Proof.Tests

/-! ## Well-formedness: each check refuses a term (R69, R73) -/

theorem test_offset_512_refused : Instr.wellFormed true (.add ⟨15#4, 1#4, 2#4, 3#4, 512⟩) = false := by decide
theorem test_offset_minus_513_refused : Instr.wellFormed true (.add ⟨15#4, 1#4, 2#4, 3#4, -513⟩) = false := by decide
theorem test_extension_opcode_refused_without_ext :
    Instr.wellFormed false (.and ⟨15#4, 1#4, 2#4, 3#4, 0⟩) = false := by decide
theorem test_offset_bounds_accepted :
    Instr.wellFormed true (.asr ⟨0#4, 15#4, 15#4, 15#4, -512⟩) = true ∧
      Instr.wellFormed false (.halt ⟨0#4, 0#4, 0#4, 0#4, 511⟩) = true := by decide

/-! ## Decoding: one word a row, written out field by field from R66 and R72 -/

/-- op 000000, cond 1111, target 0011, src1 0100, src2 0101, offset 0000001001 (S13). -/
theorem test_decode_halt :
    decode true 0b00000011110011010001010000001001#32 = .ok (.halt ⟨15#4, 3#4, 4#4, 5#4, 9⟩) := by decide
/-- V22. -/
theorem test_decode_load :
    decode true 0b00000111110001000011111111111111#32 = .ok (.load ⟨15#4, 1#4, 0#4, 15#4, -1⟩) := by decide
/-- V30. -/
theorem test_decode_store :
    decode true 0b00001011110001000000000111111111#32 = .ok (.store ⟨15#4, 1#4, 0#4, 0#4, 511⟩) := by decide
/-- V21. -/
theorem test_decode_add :
    decode true 0b00001100100001001000110000001111#32 = .ok (.add ⟨2#4, 1#4, 2#4, 3#4, 15⟩) := by decide
/-- R115's example. -/
theorem test_decode_sub :
    decode true 0b00010111110001000100000000000001#32 = .ok (.sub ⟨15#4, 1#4, 1#4, 0#4, 1⟩) := by decide
/-- V27. -/
theorem test_decode_mul :
    decode true 0b00011001100100010101101000000000#32 = .ok (.mul ⟨6#4, 4#4, 5#4, 6#4, -512⟩) := by decide
/-- V28. -/
theorem test_decode_div :
    decode true 0b00011100010111100010010111111111#32 = .ok (.div ⟨1#4, 7#4, 8#4, 9#4, 511⟩) := by decide
/-- R121's example. -/
theorem test_decode_and :
    decode true 0b00100011110001001000000011111111#32 = .ok (.and ⟨15#4, 1#4, 2#4, 0#4, 255⟩) := by decide
/-- R122's example. -/
theorem test_decode_or :
    decode true 0b00100111110001001000110000000000#32 = .ok (.or ⟨15#4, 1#4, 2#4, 3#4, 0⟩) := by decide
/-- R123's example. -/
theorem test_decode_xor :
    decode true 0b00101011110001000100001111111111#32 = .ok (.xor ⟨15#4, 1#4, 1#4, 0#4, -1⟩) := by decide
/-- R124's example. -/
theorem test_decode_shl :
    decode true 0b00101111110001001000000000000100#32 = .ok (.shl ⟨15#4, 1#4, 2#4, 0#4, 4⟩) := by decide
/-- R125's example. -/
theorem test_decode_shr :
    decode true 0b00110011110011001100000000011010#32 = .ok (.shr ⟨15#4, 3#4, 3#4, 0#4, 26⟩) := by decide
/-- V29. -/
theorem test_decode_asr :
    decode true 0b00110110001110110111000000000001#32 = .ok (.asr ⟨8#4, 14#4, 13#4, 12#4, 1⟩) := by decide

/-- R75: the words on both sides of each gap in the opcode map (V40 to V42, V34). -/
theorem test_decode_gap_bounds :
    (decode true 0x0FFFFFFF#32).isOk = true ∧ (decode true 0x10000000#32).isOk = false ∧
      (decode true 0x13FFFFFF#32).isOk = false ∧ (decode true 0x14000000#32).isOk = true ∧
      (decode true 0x37FFFFFF#32).isOk = true ∧ (decode true 0x38000000#32).isOk = false := by decide
/-- R73, V48: without the extension, opcodes 8 to 13 do not decode. -/
theorem test_decode_without_ext :
    (decode false 0x1FFFFFFF#32).isOk = true ∧ (decode false 0x20000000#32).isOk = false ∧
      (decode false 0x37FFFFFF#32).isOk = false := by decide

/-- R77's examples: offsets 512, -513 and 1023, and `cond` 31 and `target` 17, are cut to their fields. -/
theorem test_encode_truncates :
    encode (.add ⟨15#4, 1#4, 2#4, 3#4, 512⟩) = 0x0FC48E00#32 ∧ encode (.add ⟨15#4, 1#4, 2#4, 3#4, -513⟩) = 0x0FC48DFF#32 ∧
      encode (.add ⟨15#4, 1#4, 2#4, 3#4, 1023⟩) = 0x0FC48FFF#32 ∧ encodeRaw 3 31 17 2 3 0 = 0x0FC48C00#32 := by decide

/-- V3, V5, V9 and V10. -/
theorem test_bitfield :
    (BitField.mk 0 9).insert 0x400 0x12345678#32 = 0x12345400#32 ∧
      (BitField.mk 22 25).insert 5 0xFFFFFFFF#32 = 0xFD7FFFFF#32 ∧
      (BitField.mk 0 31).extractSigned 0xDEADBEEF#32 = some (-559038737) ∧
      (BitField.mk 4 5).extractSigned 0x00000030#32 = some (-1) := by decide
/-- V11: a signed field of width 1 is the one failing case of the primitive (R154). -/
theorem test_bitfield_width_one_refused : (BitField.mk 31 31).extractSigned 0x80000000#32 = none := by decide

/-! ## The ALU at its corners (spec/95_test_vectors.md section 2.3) -/

/-- A3, A4, A6. -/
theorem test_alu_add : aluAdd 0x7FFFFFFF#32 1#32 = (0x80000000#32, 9#4) ∧ aluAdd 0xFFFFFFFF#32 1#32 = (0#32, 2#4) ∧
    aluAdd 0x80000000#32 0xFFFFFFFF#32 = (0x7FFFFFFF#32, 12#4) := by decide
/-- A12, A14, A15. -/
theorem test_alu_sub : aluSub 0x80000000#32 1#32 = (0x7FFFFFFF#32, 12#4) ∧
    aluSub 0#32 0x80000000#32 = (0x80000000#32, 9#4) ∧ aluSub 0#32 1#32 = (0xFFFFFFFF#32, 1#4) := by decide
/-- A17, A19, A21, A25. -/
theorem test_alu_mul : aluMul 0xFFFFFFFF#32 0xFFFFFFFF#32 = (1#32, 4#4) ∧ aluMul 0x10000#32 0x10000#32 = (0#32, 10#4) ∧
    aluMul 0x80000000#32 0xFFFFFFFF#32 = (0x80000000#32, 9#4) ∧
    aluMul 0xB504#32 0xB504#32 = (0x7FFEA810#32, 4#4) := by decide
/-- A27, A28, A32, A33, A35, A36. -/
theorem test_alu_div : aluDiv 0xFFFFFFF9#32 2#32 = (0xFFFFFFFC#32, 1#4) ∧
    aluDiv 7#32 0xFFFFFFFE#32 = (0xFFFFFFFC#32, 1#4) ∧ aluDiv 0xFFFFFFFF#32 2#32 = (0xFFFFFFFF#32, 1#4) ∧
    aluDiv 5#32 0#32 = (0#32, 10#4) ∧ aluDiv 0x80000000#32 0xFFFFFFFF#32 = (0x80000000#32, 9#4) ∧
    aluDiv 0x80000000#32 1#32 = (0x80000000#32, 1#4) := by decide
/-- A38, A40, A43. -/
theorem test_alu_logic : aluAnd 0xF0F0F0F0#32 0xFF00FF00#32 = (0xF000F000#32, 1#4) ∧
    aluOr 0xF0F0F0F0#32 0x0F0F0F0F#32 = (0xFFFFFFFF#32, 1#4) ∧ aluXor 0x1234#32 0x1234#32 = (0#32, 2#4) := by decide
/-- A45, A47, A48. -/
theorem test_alu_shl : aluShl 1#32 0x20#32 = (1#32, 4#4) ∧ aluShl 0x80000000#32 1#32 = (0#32, 2#4) ∧
    aluShl 1#32 0xFFFFFFFF#32 = (0x80000000#32, 1#4) := by decide
/-- A49, A50, A52. -/
theorem test_alu_shr : aluShr 0x80000000#32 0x1F#32 = (1#32, 4#4) ∧ aluShr 0x80000000#32 0x20#32 = (0x80000000#32, 1#4) ∧
    aluShr 0xF0#32 0x24#32 = (0xF#32, 4#4) := by decide
/-- A53, A55, A56. -/
theorem test_alu_asr : aluAsr 0x80000000#32 0x1F#32 = (0xFFFFFFFF#32, 1#4) ∧
    aluAsr 0x7FFFFFFF#32 0x1E#32 = (1#32, 4#4) ∧ aluAsr 0xFFFFFFF0#32 2#32 = (0xFFFFFFFC#32, 1#4) := by decide
/-- A60, A62: address sums set no V; A63: HALT ignores its operands. -/
theorem test_alu_address_and_halt : aluAddress 0x7FFFFFFF#32 1#32 = (0x80000000#32, 1#4) ∧
    aluAddress 0xFFFFFFFF#32 2#32 = (1#32, 4#4) ∧ aluHalt 0x7B#32 0x1C8#32 = (0#32, 2#4) := by decide

/-! ## Single steps (spec/95_test_vectors.md section 2.4) -/

/-- The reset state with a program counter, flags and some registers. -/
def start (a : Word) (cc : FlagMask) (rs : List (RegIdx × Word)) : State :=
  rs.foldl (fun s r => s.writeReg r.1 r.2) ((startRun a State.reset).setFlags cc)

/-- One step of the word `w` placed at the program counter answers a next state with property `p`. -/
def stepOf (w : Word) (s : State) (p : State → Bool) : Bool :=
  match step (loadWord s s.pc w) with
  | .next t => p t
  | .fault _ => false
  | .refused _ => false

/-- The fault one step of the word `w` placed at the program counter ends in. -/
def faultOf (w : Word) (s : State) : Option Fault :=
  match step (loadWord s s.pc w) with
  | .next _ => none
  | .fault e => some e
  | .refused _ => none

/-- S1: skipped, one event all the same. -/
theorem test_step_add_skipped : stepOf 0x0C848C0F#32 (start 4#32 4#4 [(2#4, 7#32), (3#4, 5#32)]) (fun t =>
    t.pc == 5#32 && t.readReg 1#4 == 0#32 && t.cc == 4#4 && t.events.length == 1) = true := by decide
/-- S3: one common flag is enough. -/
theorem test_step_add_executed : stepOf 0x0C848C0F#32 (start 4#32 10#4 [(2#4, 7#32), (3#4, 5#32)]) (fun t =>
    t.pc == 5#32 && t.readReg 1#4 == 27#32 && t.cc == 4#4) = true := by decide
/-- S4: register 15 reads as the instruction's own address. -/
theorem test_step_pc_as_source : stepOf 0x0FC7C000#32 (start 7#32 15#4 []) (fun t =>
    t.pc == 8#32 && t.readReg 1#4 == 7#32) = true := by decide
/-- S5: a stored register 15 is the next address. -/
theorem test_step_pc_as_data : stepOf 0x0BFC0014#32 (start 3#32 15#4 []) (fun t =>
    t.pc == 4#32 && t.mem.read 20 == 4#32 && t.cc == 4#4) = true := by decide
/-- S6: a write to register 0 is dropped and the flags still change. -/
theorem test_step_zero_target : stepOf 0x0FC08C00#32 (start 0#32 15#4 [(2#4, 7#32), (3#4, 5#32)]) (fun t =>
    t.readReg 0#4 == 0#32 && t.cc == 4#4 && t.pc == 1#32) = true := by decide
/-- S7: a jump through memory, with the flags of the address. -/
theorem test_step_load_jump : stepOf 0x07FC0009#32 (loadWord (start 2#32 15#4 []) 9#32 4#32) (fun t =>
    t.pc == 4#32 && t.cc == 4#4) = true := by decide
/-- S8 from address 0: a jump to itself. -/
theorem test_step_jump_to_self : stepOf 0x0FFFC000#32 (start 0#32 15#4 []) (fun t =>
    t.pc == 0#32 && t.cc == 2#4) = true := by decide
/-- S9: the device read is made and its word lost in register 0. -/
theorem test_step_device_read : stepOf 0x07C001FE#32 { start 0#32 15#4 [] with deviceIn := [77#32] } (fun t =>
    t.deviceLog == [.read 510#32 77#32] && t.readReg 0#4 == 0#32 && t.cc == 4#4 && t.pc == 1#32) = true := by decide
/-- P8, its second step: a device write is an output and no store. -/
theorem test_step_device_write : stepOf 0x0BC401FF#32 (start 1#32 4#4 [(1#4, 77#32)]) (fun t =>
    outputTrace t.deviceLog == [(511#32, 77#32)] && t.mem.read 511 == 0#32) = true := by decide
/-- S11 and S12: a predicated HALT. -/
theorem test_step_halt_predicated :
    stepOf 0x00800000#32 (start 5#32 4#4 []) (fun t => !t.halted && t.pc == 6#32 && t.cc == 4#4) = true ∧
    stepOf 0x00800000#32 (start 5#32 2#4 []) (fun t => t.halted && t.pc == 6#32 && t.cc == 2#4) = true := by decide
/-- S13: HALT's other fields are ignored. -/
theorem test_step_halt_fields :
    stepOf 0x03CD1409#32 (start 5#32 1#4 [(3#4, 1#32), (4#4, 2#32), (5#4, 3#32)]) (fun t =>
      t.halted && t.pc == 6#32 && t.cc == 2#4 && t.readReg 3#4 == 1#32) = true := by decide
/-- S14: an undecodable word leaves the state as it was. -/
theorem test_step_decode_error : faultOf 0x10000000#32 (start 5#32 4#4 []) =
    some (.decodeError 0x10000000#32 4 5#32 (loadWord (start 5#32 4#4 []) 5#32 0x10000000#32)) := by decide
/-- S15: the last address of memory executes; the next fetch is outside. -/
theorem test_step_last_address : stepOf 0x0FC40001#32 (start 1023#32 15#4 []) (fun t =>
    t.pc == 1024#32 && t.readReg 1#4 == 1#32 &&
      (match step t with | .fault (.addressFault a .fetch l) => a == 1024#32 && l == t | _ => false)) = true := by decide
/-- S16: a STORE outside memory, after the advance and the flags. -/
theorem test_step_store_outside :
    (faultOf 0x0BC403FF#32 (start 0#32 15#4 [(1#4, 9#32)])).map (fun e => (e.left.pc, e.left.cc, e.left.mem)) =
      some (1#32, 1#4, [(0, 0x0BC403FF#32)]) := by decide
/-- S17. -/
theorem test_step_store : stepOf 0x0BC48FFE#32 (start 10#32 15#4 [(1#4, 0xABCD#32), (2#4, 100#32), (3#4, 50#32)]) (fun t =>
    t.mem.read 148 == 0xABCD#32 && t.cc == 4#4 && t.pc == 11#32) = true := by decide
/-- S18: the flags are the address's, not the loaded word's. -/
theorem test_step_load :
    stepOf 0x07C48C04#32 (loadWord (start 10#32 15#4 [(2#4, 100#32), (3#4, 50#32)]) 154#32 0xDEADBEEF#32) (fun t =>
      t.readReg 1#4 == 0xDEADBEEF#32 && t.cc == 4#4 && t.pc == 11#32) = true := by decide
/-- S19: the target is also the base. -/
theorem test_step_load_over_base :
    stepOf 0x07C88000#32 (loadWord (start 10#32 15#4 [(2#4, 100#32)]) 100#32 42#32) (fun t =>
      t.readReg 2#4 == 42#32) = true := by decide
/-- S21: a compare. -/
theorem test_step_sub_compare : stepOf 0x17C04800#32 (start 0#32 15#4 [(1#4, 3#32), (2#4, 5#32)]) (fun t =>
    t.cc == 1#4 && t.readReg 1#4 == 3#32) = true := by decide
/-- R116's example. -/
theorem test_step_mul : stepOf 0x1BC48C00#32 (start 0#32 15#4 [(2#4, 6#32), (3#4, 7#32)]) (fun t =>
    t.readReg 1#4 == 42#32 && t.cc == 4#4) = true := by decide
/-- R117's example. -/
theorem test_step_div : stepOf 0x1FC48002#32 (start 0#32 15#4 [(2#4, 0xFFFFFFF9#32)]) (fun t =>
    t.readReg 1#4 == 0xFFFFFFFC#32 && t.cc == 1#4) = true := by decide
/-- R121's example. -/
theorem test_step_and : stepOf 0x23C480FF#32 (start 0#32 15#4 [(2#4, 0x12345678#32)]) (fun t =>
    t.readReg 1#4 == 0x78#32 && t.cc == 4#4) = true := by decide
/-- R122's example. -/
theorem test_step_or : stepOf 0x27C48C00#32 (start 0#32 15#4 [(2#4, 0xF000#32), (3#4, 0xF#32)]) (fun t =>
    t.readReg 1#4 == 0xF00F#32 && t.cc == 4#4) = true := by decide
/-- R123's example. -/
theorem test_step_xor : stepOf 0x2BC443FF#32 (start 0#32 15#4 [(1#4, 0xFFFF#32)]) (fun t =>
    t.readReg 1#4 == 0xFFFF0000#32 && t.cc == 1#4) = true := by decide
/-- R124's example. -/
theorem test_step_shl : stepOf 0x2FC48004#32 (start 0#32 15#4 [(2#4, 0x123#32)]) (fun t =>
    t.readReg 1#4 == 0x1230#32 && t.cc == 4#4) = true := by decide
/-- R125's example. -/
theorem test_step_shr : stepOf 0x33CCC01A#32 (start 0#32 15#4 [(3#4, 0x0FC48C00#32)]) (fun t =>
    t.readReg 3#4 == 3#32 && t.cc == 4#4) = true := by decide
/-- R126's example, with ALWAYS for its mask. -/
theorem test_step_asr : stepOf 0x37FB7001#32 (start 0#32 15#4 [(13#4, 0xFFFFFFF0#32), (12#4, 1#32)]) (fun t =>
    t.readReg 14#4 == 0xFFFFFFFC#32 && t.cc == 1#4) = true := by decide
/-- S24. -/
theorem test_step_halted : stepOf 0x0FC40001#32 ((start 9#32 1#4 []).setRun .halted) (fun t =>
    t == loadWord ((start 9#32 1#4 []).setRun .halted) 9#32 0x0FC40001#32) = true := by decide

/-! ## Memory, the host's operations, the notation -/

/-- R46: writing what an unlisted address reads as removes the entry; entries stay in rising order. -/
theorem test_memory_canonical :
    Memory.write (Memory.write (Memory.write [] 7 1#32) 3 2#32) 7 0#32 = [(3, 2#32)] ∧
      Memory.write (Memory.write [] 7 1#32) 3 2#32 = [(3, 2#32), (7, 1#32)] ∧
      Memory.wf [(3, 2#32), (7, 1#32)] = true ∧ Memory.wf [(7, 1#32), (3, 2#32)] = false ∧
      Memory.wf [(3, 0#32)] = false := by decide
/-- R5: the default parameters are legal, an empty window is, a window beyond memory is not. -/
theorem test_params : Config.defaults.wf = true ∧ Params.wf ⟨1, 1, 0, false⟩ = true ∧
    Params.wf ⟨1024, 1024, 1024, true⟩ = false ∧ Params.wf ⟨0, 1, 0, true⟩ = false := by decide
/-- The placed word is the one the next step runs, in memory, in the window and from Halted. -/
theorem test_with_fetch_word :
    decodeTableWord 32 0x0FC40001 = some (.add ⟨15#4, 1#4, 0#4, 0#4, 1⟩) ∧
    (match step (State.reset.withFetchWord 32 0x0FC40001) with | .next t => t.readReg 1#4 == 1#32 | _ => false) = true ∧
    (match step (((start 510#32 15#4 []).setRun .halted).withFetchWord 32 0x0FC40001) with
      | .next t => t.readReg 1#4 == 1#32 | _ => false) = true := by decide
/-- T10: the symbolic forms of label 0 at address 1. -/
theorem test_symbolic_forms : encode (jumpTo 15#4 1 0) = 0x0FFC3FFF#32 ∧ encode (jumpTo 4#4 1 0) = 0x0D3C3FFF#32 ∧
    encode (loadFrom 15#4 1#4 1 0) = 0x07C43FFF#32 ∧ encode (storeTo 15#4 2#4 1 0) = 0x0BC83FFF#32 := by decide
/-- P2: a label before the line that names it. -/
theorem test_assemble_backward_jump :
    assemble [⟨some "loop", .full (.add ⟨15#4, 1#4, 1#4, 1#4, 0⟩)⟩, ⟨none, .blank⟩, ⟨none, .jump 15#4 "loop"⟩] =
      [(0, 0x0FC44400#32), (1, 0x0FFC3FFF#32)] := by decide
/-- P1: a data label, and an absent symbol that emits no word. -/
theorem test_assemble_data :
    assemble [⟨some "x", .data (some 5)⟩, ⟨none, .load 15#4 1#4 "x"⟩, ⟨none, .load 15#4 1#4 "y"⟩, ⟨none, .data none⟩] =
      [(0, 5#32), (1, 0x07C43FFF#32), (3, 0#32)] := by decide
/-- T6's source text, and T9's line, which emits no word and defines no symbol. -/
theorem test_assemble_text :
    assembleText true "x: DATA 5\n  LOAD r1,x # five\nHALT r0,r0,r0" =
      [(0, 5#32), (1, 0x07C43FFF#32), (2, 0x03C00000#32)] ∧
    assembleText true "loop: ADD r1,r1,r1\nq: BOGUS r1,r2,r3\nJUMP loop\nJUMP q" =
      [(0, 0x0FC44400#32), (1, 0x0FFC3FFF#32)] := by decide
/-- R80 to R83: what is no line of the grammar, and the line numbers of the errors. -/
theorem test_syntax_errors :
    readLine false "AND r1,r2,r3".toList = none ∧ readLine true "ADD/ZZ r1,r2,r3".toList = none ∧
      readLine true "ADD r1,r2,r16".toList = none ∧ readLine true "add r1,r2,r3".toList = none ∧
      syntaxErrors true 1 (splitLines "ADD r1,r1\nHALT r0,r0,r0\n?".toList) = [1, 3] := by decide
/-- R80, R83, R85: literals, a label alone, and the order in which the grammars are tried. -/
theorem test_read_line :
    readLine true "DATA 0xDEADBEEF".toList = some ⟨none, .data (some 0xDEADBEEF)⟩ ∧
      readLine true "end: ; done".toList = some ⟨some "end", .blank⟩ ∧
      readLine true "LOAD r1,r2".toList = some ⟨none, .load 15#4 1#4 "r2"⟩ ∧
      readLine true "LOAD r1,r2,r3".toList = some ⟨none, .full (.load ⟨15#4, 1#4, 2#4, 3#4, 0⟩)⟩ := by decide
/-- V27 and V22, in the canonical form of R79. -/
theorem test_canonical_text :
    canonicalText (.mul ⟨6#4, 4#4, 5#4, 6#4, -512⟩) = "MUL/ZP r4,r5,r6[-512]" ∧
      canonicalText (.load ⟨15#4, 1#4, 0#4, 15#4, -1⟩) = "LOAD r1,r0,r15[-1]" ∧
      canonicalText (.halt ⟨0#4, 0#4, 0#4, 0#4, 5⟩) = "HALT/NEVER r0,r0,r0[5]" := by decide

/-! ## Witnesses: states and operands that meet each obligation's hypotheses, clause by clause

The parameters are the defaults: plain addresses 0 to 509 and 512 to 1023, the window 510 and 511, nothing from 1024. -/

/-- The outcome is a next state with property `p`. -/
def isNext (r : Result) (p : State → Bool) : Bool :=
  match r with
  | .next t => p t
  | .fault _ => false
  | .refused _ => false

/-- The outcome is a fault with property `p`. -/
def isFault (r : Result) (p : Fault → Bool) : Bool :=
  match r with
  | .next _ => false
  | .fault e => p e
  | .refused _ => false

theorem next_of_isNext {r : Result} {p : State → Bool} (h : isNext r p = true) : ∃ t, r = .next t ∧ p t = true := by
  cases r with
  | next t => exact ⟨t, rfl, h⟩
  | fault _ => cases h
  | refused _ => cases h

theorem fault_of_isFault {r : Result} {p : Fault → Bool} (h : isFault r p = true) : ∃ e, r = .fault e ∧ p e = true := by
  cases r with
  | next _ => cases h
  | fault e => exact ⟨e, rfl, h⟩
  | refused _ => cases h

theorem eq_fault_of_isFault {r : Result} {x : Fault} (h : isFault r (fun e => decide (e = x)) = true) : r = .fault x := by
  obtain ⟨e, h1, h2⟩ := fault_of_isFault h
  rw [h1, of_decide_eq_true h2]

/-- Address 5, all flags, `x[1]` to `x[4]` set, the word `w` to fetch and one word for the device to answer with. -/
def ready (w : Word) : State :=
  loadWord { start 5#32 15#4 [(1#4, 7#32), (2#4, 0xFFFFFFFF#32), (3#4, 0x80000000#32), (4#4, 509#32)] with
    deviceIn := [77#32] } 5#32 w

/-- `ready` with the program counter at `a`, and the word `w` there where `a` is a plain address. -/
def readyAt (a w : Word) : State := loadWord ((ready 0#32).writeReg pcIdx a) a w

/-! ### The decoder block -/

theorem witness_DecodeAndEncodeAgree :
    Instr.wellFormed true (.asr ⟨0#4, 15#4, 15#4, 15#4, -512⟩) = true ∧
      Instr.wellFormed false (.div ⟨15#4, 0#4, 0#4, 0#4, 511⟩) = true ∧
      decode true 0x37FFFFFF#32 = .ok (.asr ⟨15#4, 15#4, 15#4, 15#4, -1⟩) ∧
      decode false 0x1C000000#32 = .ok (.div ⟨0#4, 0#4, 0#4, 0#4, 0⟩) := by decide

theorem witness_DecodeExtractsEveryField :
    (∀ n ∈ [0, 3, 5, 7], AssignedNumber false n) ∧ (∀ n ∈ [8, 13], AssignedNumber true n) ∧
      (∀ n ∈ [4, 8, 13, 14, 63], ¬AssignedNumber false n) ∧ (∀ n ∈ [4, 14, 63], ¬AssignedNumber true n) ∧
      ((0x1FFFFFFF#32).extractLsb' 26 6).toNat = 7 ∧ ((0x20000000#32).extractLsb' 26 6).toNat = 8 := by decide

theorem witness_BitFieldLaws :
    (BitField.mk 0 31).valid = true ∧ 2 ^ 32 - 1 < 2 ^ (BitField.mk 0 31).width ∧
      (BitField.mk 31 31).valid = true ∧ 1 < 2 ^ (BitField.mk 31 31).width ∧
      (BitField.mk 10 13).valid = true ∧ (9 < (BitField.mk 10 13).lo ∧ (BitField.mk 10 13).hi < 14) ∧
      (2 ≤ 10 ∧ 511 < 2 ^ 10 ∧ Nat.testBit 511 9 = false ∧ 512 < 2 ^ 10 ∧ Nat.testBit 512 9 = true) := by decide

/-! ### The instructions -/

theorem witness_AddWritesTheSum : Executed ⟨2#4, 1#4, 2#4, 3#4, -512⟩ (ready 0#32) := by decide
theorem witness_SubWritesTheDifference : Executed ⟨1#4, 0#4, 3#4, 2#4, 511⟩ (ready 0#32) := by decide
theorem witness_MulWritesTheLowProduct : Executed ⟨8#4, 15#4, 3#4, 2#4, 0⟩ (ready 0#32) := by decide

/-- Operand 2 is 0; the quotient that does not fit; a positive, a negative and the smallest dividend. -/
theorem witness_DivWritesTheFloorQuotient :
    (Executed ⟨15#4, 1#4, 1#4, 1#4, -7⟩ (ready 0#32) ∧ secondOperand ⟨15#4, 1#4, 1#4, 1#4, -7⟩ (ready 0#32) = 0#32) ∧
    (firstOperand ⟨15#4, 1#4, 3#4, 2#4, 0⟩ (ready 0#32) = 0x80000000#32 ∧
      secondOperand ⟨15#4, 1#4, 3#4, 2#4, 0⟩ (ready 0#32) = 0xFFFFFFFF#32) ∧
    (secondOperand ⟨15#4, 1#4, 3#4, 0#4, 1⟩ (ready 0#32) ≠ 0#32 ∧
      ¬(firstOperand ⟨15#4, 1#4, 3#4, 0#4, 1⟩ (ready 0#32) = 0x80000000#32 ∧
        secondOperand ⟨15#4, 1#4, 3#4, 0#4, 1⟩ (ready 0#32) = 0xFFFFFFFF#32) ∧
      0 < (secondOperand ⟨15#4, 1#4, 3#4, 0#4, 1⟩ (ready 0#32)).toInt) ∧
    (firstOperand ⟨15#4, 1#4, 1#4, 2#4, 0⟩ (ready 0#32) = 7#32 ∧
      (secondOperand ⟨15#4, 1#4, 1#4, 2#4, 0⟩ (ready 0#32)).toInt = -1) := by decide

theorem witness_AndWritesTheBitwiseAnd : Executed ⟨4#4, 1#4, 2#4, 0#4, 255⟩ (ready 0#32) := by decide
theorem witness_OrWritesTheBitwiseOr : Executed ⟨15#4, 0#4, 2#4, 3#4, 1⟩ (ready 0#32) := by decide
theorem witness_XorWritesTheBitwiseXor : Executed ⟨15#4, 15#4, 15#4, 0#4, -1⟩ (ready 0#32) := by decide
/-- A shift by 0 and a shift by 31. -/
theorem witness_ShlShiftsLeft : Executed ⟨15#4, 1#4, 2#4, 0#4, 32⟩ (ready 0#32) ∧
    ((secondOperand ⟨15#4, 1#4, 2#4, 0#4, 32⟩ (ready 0#32)).extractLsb' 0 5).toNat = 0 := by decide
theorem witness_ShrShiftsRightWithZeros : Executed ⟨15#4, 1#4, 3#4, 2#4, 0⟩ (ready 0#32) ∧
    ((secondOperand ⟨15#4, 1#4, 3#4, 2#4, 0⟩ (ready 0#32)).extractLsb' 0 5).toNat = 31 := by decide
theorem witness_AsrShiftsRightWithTheSign : Executed ⟨15#4, 1#4, 3#4, 2#4, 0⟩ (ready 0#32) ∧
    (firstOperand ⟨15#4, 1#4, 3#4, 2#4, 0⟩ (ready 0#32)).toInt = -2 ^ 31 := by decide

/-- The first and last address on each side of every bound of the address map, named by `x[0] + x[4] + offset`. -/
theorem witness_addresses :
    (∀ k ∈ [-509, 0, 3], IsPlain (ready 0#32).cfg (addressOfAccess ⟨15#4, 1#4, 0#4, 4#4, k⟩ (ready 0#32))) ∧
    (∀ k ∈ [1, 2], IsWindow (ready 0#32).cfg (addressOfAccess ⟨15#4, 1#4, 0#4, 4#4, k⟩ (ready 0#32))) ∧
    IsPlain (ready 0#32).cfg (addressOfAccess ⟨15#4, 1#4, 4#4, 4#4, 5⟩ (ready 0#32)) ∧
    addressOfAccess ⟨15#4, 1#4, 4#4, 4#4, 5⟩ (ready 0#32) = 1023#32 ∧
    (ready 0#32).cfg.memWords ≤ (addressOfAccess ⟨15#4, 1#4, 4#4, 4#4, 6⟩ (ready 0#32)).toNat ∧
    addressOfAccess ⟨15#4, 1#4, 4#4, 4#4, 6⟩ (ready 0#32) = 1024#32 ∧
    (ready 0#32).cfg.memWords ≤ (addressOfAccess ⟨15#4, 1#4, 2#4, 0#4, 0⟩ (ready 0#32)).toNat := by decide

/-- With `witness_addresses`, whose instructions have the mask of this one. -/
theorem witness_LoadReadsTheEffectiveAddress : Executed ⟨15#4, 1#4, 0#4, 4#4, 1⟩ (ready 0#32) ∧
    ¬Executed ⟨0#4, 1#4, 0#4, 4#4, 1⟩ (ready 0#32) := by decide

/-- With `witness_addresses`; the stored register is 15, and another. -/
theorem witness_StoreWritesTheEffectiveAddress :
    (Executed ⟨15#4, 15#4, 0#4, 4#4, 3⟩ (ready 0#32) ∧ (ready 0#32).readReg 15#4 + 1#32 = 6#32) ∧
    (Executed ⟨15#4, 1#4, 0#4, 4#4, 3⟩ (ready 0#32) ∧ (ready 0#32).readReg 1#4 = 7#32) ∧
    ¬Executed ⟨0#4, 1#4, 0#4, 4#4, 1⟩ (ready 0#32) := by decide

theorem witness_HaltStopsTheMachine : Executed ⟨2#4, 15#4, 1#4, 2#4, 9⟩ (ready 0#32) ∧
    ¬Executed ⟨2#4, 15#4, 1#4, 2#4, 9⟩ ((ready 0#32).setFlags 4#4) := by decide

theorem witness_SkippedInstructionOnlyAdvances :
    ¬Executed (Instr.store ⟨6#4, 1#4, 2#4, 3#4, 0⟩).fields ((ready 0#32).setFlags 9#4) := by decide

theorem witness_FlagsFollowTheResult :
    ((1#32) ≠ 0#32 ∧ (1#32).getLsbD 31 = false) ∧ ((0x80000000#32) ≠ 0#32 ∧ (0x80000000#32).getLsbD 31 = true) ∧
      OverflowCase .add 0x7FFFFFFF#32 1#32 ∧ ¬OverflowCase .add 0x7FFFFFFE#32 1#32 ∧
      OverflowCase .div 5#32 0#32 ∧ ¬OverflowCase .shl 0x80000000#32 1#32 := by
  refine ⟨by decide, by decide, ?_, ?_, ?_, ?_⟩ <;> unfold OverflowCase <;> decide

theorem witness_AluBlockRejectsUnknownOpcodes :
    ¬AssignedNumber true 4 ∧ ¬AssignedNumber true 14 ∧ ¬AssignedNumber false 8 ∧ AssignedNumber true 13 := by decide

/-! ### The step -/

theorem witness_StepRunsTheDecodedInstruction :
    ((readyAt 511#32 0#32).runState = .running ∧
      (readyAt 511#32 0#32).fetch = some (77#32, { readyAt 511#32 0#32 with
        deviceIn := [], draws := 1, deviceLog := [.read 511#32 77#32] }) ∧
      decode (readyAt 511#32 0#32).cfg.aluExt 77#32 = .ok (.halt ⟨0#4, 0#4, 0#4, 0#4, 77⟩)) ∧
    (IsPlain (readyAt 1023#32 0x0FC48C00#32).cfg ((readyAt 1023#32 0x0FC48C00#32).readReg 15#4) ∧
      decode (readyAt 1023#32 0x0FC48C00#32).cfg.aluExt
        ((readyAt 1023#32 0x0FC48C00#32).mem.read ((readyAt 1023#32 0x0FC48C00#32).readReg 15#4).toNat) =
          .ok (.add ⟨15#4, 1#4, 2#4, 3#4, 0⟩)) := by decide

theorem witness_HaltedStepChangesNothing : ((ready 0#32).setRun .halted).runState = .halted := by decide

theorem witness_FetchOutsideMemoryFaults : (readyAt 1024#32 0#32).runState = .running ∧
    (readyAt 1024#32 0#32).cfg.memWords ≤ ((readyAt 1024#32 0#32).readReg 15#4).toNat := by decide

theorem witness_FetchFromTheWindowAsksTheDevice :
    IsWindow (readyAt 510#32 0#32).cfg ((readyAt 510#32 0#32).readReg 15#4) ∧
      IsWindow (readyAt 511#32 0#32).cfg ((readyAt 511#32 0#32).readReg 15#4) := by decide

/-- A word that does not decode, with a mask of 0, in plain memory; and its fault. -/
theorem witness_UndecodableWordFaults :
    ((ready 0x10000000#32).runState = .running ∧
      (ready 0x10000000#32).fetch = some (0x10000000#32, ready 0x10000000#32) ∧
      ¬AssignedNumber (ready 0x10000000#32).cfg.aluExt ((0x10000000#32).toNat / 2 ^ 26) ∧
      IsPlain (ready 0x10000000#32).cfg ((ready 0x10000000#32).readReg 15#4)) ∧
    step (ready 0x10000000#32) = .fault (.decodeError 0x10000000#32 4 5#32 (ready 0x10000000#32)) :=
  ⟨by decide, eq_fault_of_isFault (by decide)⟩

/-- Clause by clause: an ADD that changes a register and the flags, a STORE that changes memory, a HALT, and an ADD to
register 15, for which the first clause says nothing. -/
theorem witness_WhatEveryStepGuarantees :
    (∃ t, step (ready 0x0FC48C00#32) = .next t ∧ (t.readReg 1#4 != 7#32 && t.cc != 15#4) = true) ∧
    (∃ t, step (ready 0x0BC403FF#32) = .fault t ∧ (t.left.pc == 6#32) = true) ∧
    (∃ t, step (ready 0x0BC40000#32) = .next t ∧ (t.mem.read 0 != (ready 0x0BC40000#32).mem.read 0) = true) ∧
    (∃ t, step (ready 0x03C00000#32) = .next t ∧ (t.runState != .running) = true) ∧
    (∃ t, step (ready 0x0FFFC00A#32) = .next t ∧ (t.pc == 15#32) = true) :=
  ⟨next_of_isNext (by decide), fault_of_isFault (by decide), next_of_isNext (by decide), next_of_isNext (by decide),
    next_of_isNext (by decide)⟩

/-- The four faults a step can end in. -/
theorem witness_FaultsLeaveThePreciseState :
    step (readyAt 1024#32 0#32) = .fault (.addressFault 1024#32 .fetch (readyAt 1024#32 0#32)) ∧
    step (ready 0xFFFFFFFF#32) = .fault (.decodeError 0xFFFFFFFF#32 63 5#32 (ready 0xFFFFFFFF#32)) ∧
    (∃ e, step (ready 0x07C48000#32) = .fault e ∧ (e.left.pc == 6#32 && e.left.readReg 1#4 == 7#32) = true) ∧
    (∃ e, step (ready 0x0BC4C000#32) = .fault e ∧ (e.left.pc == 6#32 && e.left.events.length == 1) = true) :=
  ⟨eq_fault_of_isFault (by decide), eq_fault_of_isFault (by decide), fault_of_isFault (by decide),
    fault_of_isFault (by decide)⟩

theorem witness_OneEventPerDecodedStep :
    (∃ t, step (ready 0x0C048C00#32) = .next t ∧ (t.events.length == 1) = true) ∧
    (∃ t, step ((ready 0#32).setRun .halted) = .next t ∧ (t.events.length == 0) = true) ∧
    step (ready 0x10000000#32) = .fault (.decodeError 0x10000000#32 4 5#32 (ready 0x10000000#32)) ∧
    step (readyAt 1024#32 0#32) = .fault (.addressFault 1024#32 .fetch (readyAt 1024#32 0#32)) ∧
    (∃ e, step (ready 0x07C48000#32) = .fault e ∧
      (match e with | .addressFault a .load _ => a == 0xFFFFFFFF#32 | _ => false) = true) ∧
    (∃ e, step (ready 0x0BC4C000#32) = .fault e ∧
      (match e with | .addressFault a .store _ => a == 0x80000000#32 | _ => false) = true) :=
  ⟨next_of_isNext (by decide), next_of_isNext (by decide), eq_fault_of_isFault (by decide),
    eq_fault_of_isFault (by decide), fault_of_isFault (by decide), fault_of_isFault (by decide)⟩

/-- A LOAD from each end of the window, a STORE to each, a step with no device access, and a fetch in the window. -/
theorem witness_DeviceSeesEachAccessOnce :
    (∃ t, step (ready 0x07C401FE#32) = .next t ∧ (t.deviceLog == [.read 510#32 77#32]) = true) ∧
    (∃ t, step (ready 0x07C401FF#32) = .next t ∧ (t.deviceLog == [.read 511#32 77#32]) = true) ∧
    (∃ t, step (ready 0x0BC401FE#32) = .next t ∧ (t.deviceLog == [.write 510#32 7#32]) = true) ∧
    (∃ t, step (ready 0x0BC401FF#32) = .next t ∧ (t.deviceLog == [.write 511#32 7#32]) = true) ∧
    (∃ t, step (ready 0x0BC401FD#32) = .next t ∧ (t.deviceLog == []) = true) ∧
    (∃ t, step (readyAt 510#32 0#32) = .next t ∧ (t.deviceLog == [.read 510#32 77#32]) = true) :=
  ⟨next_of_isNext (by decide), next_of_isNext (by decide), next_of_isNext (by decide), next_of_isNext (by decide),
    next_of_isNext (by decide), next_of_isNext (by decide)⟩

/-! ### The invariant, reset and the host's operations -/

theorem ready_good : GoodState (ready 0x0FC48C00#32) :=
  ⟨by decide, by decide, by decide, by decide, by decide⟩

theorem witness_StepKeepsGoodState :
    GoodState (ready 0x0FC48C00#32) ∧ ∃ t, step (ready 0x0FC48C00#32) = .next t ∧ (t.readReg 1#4 == 0x7FFFFFFF#32) = true :=
  ⟨ready_good, next_of_isNext (by decide)⟩

theorem witness_HostOperationsKeepGoodState :
    GoodState (loadWord (ready 0x0FC48C00#32) 5#32 0x07C48000#32) ∧
      ∃ e, step (loadWord (ready 0x0FC48C00#32) 5#32 0x07C48000#32) = .fault e ∧ (e.left.pc == 6#32) = true :=
  ⟨⟨by decide, by decide, by decide, by decide, by decide⟩, fault_of_isFault (by decide)⟩

/-- The state has all four flags set; the masks are ALWAYS, NEVER and one other. -/
theorem witness_AlwaysAndNeverMasks : GoodState (ready 0x0FC48C00#32) ∧ (ready 0x0FC48C00#32).cc = 15#4 ∧
    (Instr.add ⟨15#4, 1#4, 2#4, 3#4, 0⟩).fields.cond = 15#4 ∧ (Instr.halt ⟨0#4, 0#4, 0#4, 0#4, 5⟩).fields.cond = 0#4 ∧
    (Instr.load ⟨8#4, 1#4, 2#4, 0#4, 0⟩).fields.cond ≠ 0#4 := ⟨ready_good, by decide, by decide, by decide, by decide⟩

theorem witness_RunStartsAndThenSteps :
    (∃ t, step (startRun 5#32 (ready 0x0FC48C00#32)) = .next t ∧ (t.pc == 6#32) = true) ∧
    (∃ e, step (startRun 5#32 (ready 0x10000000#32)) = .fault e ∧ (e.left.pc == 5#32) = true) ∧
    EndedNormally ((ready 0#32).setRun .halted) :=
  ⟨next_of_isNext (by decide), fault_of_isFault (by decide), by decide⟩

theorem witness_RunEndsOnlyByHalt : (ready 0x00800000#32).runState = .running ∧
    ∃ t, step (ready 0x00800000#32) = .next t ∧ decide (EndedNormally t) = true :=
  ⟨by decide, next_of_isNext (by decide)⟩

/-! ### Memory -/

theorem witness_MemReadBranches :
    (State.reset.cfg.memWords ≤ (1024#32).toNat ∧ State.reset.cfg.memWords ≤ (0xFFFFFFFF#32).toNat) ∧
    (IsWindow State.reset.cfg 510#32 ∧ IsWindow State.reset.cfg 511#32) ∧
    (IsPlain State.reset.cfg 0#32 ∧ IsPlain State.reset.cfg 509#32 ∧ IsPlain State.reset.cfg 512#32 ∧
      IsPlain State.reset.cfg 1023#32) := by decide

/-- With the addresses of `witness_MemReadBranches`. -/
theorem witness_MemWriteThenRead : IsPlain State.reset.cfg 509#32 ∧ 512#32 ≠ 509#32 ∧ IsPlain State.reset.cfg 512#32 := by
  decide

/-- At address 5, STORE of `x[1]` to address 9, and to address 6, the next one. -/
theorem witness_StoreIsSeenByTheNextFetch :
    (Executed ⟨15#4, 1#4, 0#4, 15#4, 4⟩ (ready 0#32) ∧
      IsPlain (ready 0#32).cfg (addressOfAccess ⟨15#4, 1#4, 0#4, 15#4, 4⟩ (ready 0#32)) ∧
      ∃ t, exec (.store ⟨15#4, 1#4, 0#4, 15#4, 4⟩) (ready 0#32) = .next t ∧ (t.mem.read 9 == 7#32) = true) ∧
    ((ready 0#32).readReg 15#4 + 1#32 = addressOfAccess ⟨15#4, 1#4, 0#4, 15#4, 1⟩ (ready 0#32) ∧
      ∃ t, exec (.store ⟨15#4, 1#4, 0#4, 15#4, 1⟩) (ready 0#32) = .next t ∧ (t.mem.read 6 == 7#32) = true) :=
  ⟨⟨by decide, by decide, next_of_isNext (by decide)⟩, by decide, next_of_isNext (by decide)⟩

/-- With a word to answer with, and with none. -/
theorem witness_DeviceAnswersComeFromTheRun : Executed ⟨15#4, 1#4, 0#4, 0#4, 510⟩ (ready 0#32) ∧
    IsWindow (ready 0#32).cfg (addressOfAccess ⟨15#4, 1#4, 0#4, 0#4, 510⟩ (ready 0#32)) ∧
    (ready 0#32).deviceIn = 77#32 :: [] ∧
    Executed ⟨15#4, 1#4, 0#4, 0#4, 511⟩ State.reset ∧
    IsWindow State.reset.cfg (addressOfAccess ⟨15#4, 1#4, 0#4, 0#4, 511⟩ State.reset) ∧ State.reset.deviceIn = [] := by
  decide

theorem witness_LoadedWordIsFetched : IsPlain (ready 0#32).cfg 0#32 ∧ IsPlain (ready 0#32).cfg 1023#32 ∧
    1022 ≠ (1023#32).toNat := by decide

/-- In plain memory and in the window. -/
theorem witness_PlacedWordIsFetchedNext :
    ((readyAt 1023#32 0#32).readReg 15#4).toNat < (readyAt 1023#32 0#32).cfg.memWords ∧
      ((readyAt 510#32 0#32).readReg 15#4).toNat < (readyAt 510#32 0#32).cfg.memWords := by decide

/-! ### Register 15 and the notation -/

theorem witness_RelativeJumpLands : Executed ⟨15#4, 15#4, 0#4, 15#4, -5⟩ (ready 0#32) := by decide

/-- The farthest label ahead, in plain memory; the farthest back, in the window; and one outside memory, named by the
last address. -/
theorem witness_SymbolicFormsReachTheirLabel :
    ((-512 : Int) ≤ (516 : Nat) - (5 : Nat) ∧ ((516 : Nat) : Int) - (5 : Nat) ≤ 511 ∧
      (ready 0#32).readReg 15#4 = BitVec.ofNat 32 5 ∧ Executed (relativeFields 15#4 1#4 5 516) (ready 0#32) ∧
      IsPlain (ready 0#32).cfg (BitVec.ofNat 32 516)) ∧
    ((-512 : Int) ≤ (511 : Nat) - (1023 : Nat) ∧ ((511 : Nat) : Int) - (1023 : Nat) ≤ 511 ∧
      (readyAt 1023#32 0#32).readReg 15#4 = BitVec.ofNat 32 1023 ∧
      Executed (relativeFields 15#4 1#4 1023 511) (readyAt 1023#32 0#32) ∧
      IsWindow (readyAt 1023#32 0#32).cfg (BitVec.ofNat 32 511)) ∧
    ((-512 : Int) ≤ (1024 : Nat) - (1023 : Nat) ∧ ((1024 : Nat) : Int) - (1023 : Nat) ≤ 511 ∧
      Executed (relativeFields 15#4 15#4 1023 1024) (readyAt 1023#32 0#32) ∧
      (readyAt 1023#32 0#32).cfg.memWords ≤ 1024) := by decide

theorem witness_RegisterFifteenInsideAStep :
    (14#4 ≠ 0#4 ∧ 14#4 ≠ 15#4 ∧ Executed ⟨15#4, 14#4, 15#4, 0#4, 2⟩ (ready 0#32)) ∧
    (Executed ⟨15#4, 15#4, 15#4, 0#4, 504⟩ (ready 0#32) ∧
      IsPlain (ready 0#32).cfg ((ready 0#32).readReg 15#4 + BitVec.ofInt 32 504)) := by decide

/-- Less (by the largest difference that fits), equal, greater. -/
theorem witness_SubComparesSigned :
    (Executed ⟨15#4, 0#4, 3#4, 0#4, 0⟩ (ready 0#32) ∧
      ((ready 0#32).readReg 3#4).toInt - ((ready 0#32).readReg 0#4).toInt = -2 ^ 31) ∧
    ((ready 0#32).readReg 1#4).toInt - ((ready 0#32).readReg 1#4).toInt = 0 ∧
    (((ready 0#32).readReg 2#4).toInt - ((ready 0#32).readReg 3#4).toInt = 2 ^ 31 - 1) := by decide

theorem witness_LabelsAgreeInBothPasses :
    (Line.mk (some "x") (.jump 15#4 "x")).label = some "x" ∧
      (∀ k ∈ [Line.mk none .blank, Line.mk (some "y") (.data none)], k.label ≠ some "x") ∧
      emitWord (symbolTable 0 ([Line.mk none .blank, Line.mk (some "y") (.data none)] ++
        Line.mk (some "x") (.jump 15#4 "x") :: [])) 1 (.jump 15#4 "x") = some 0x0FFC3C00#32 := by decide

theorem witness_CanonicalTextIsRead : Instr.wellFormed true (.shl ⟨10#4, 15#4, 0#4, 9#4, -512⟩) = true ∧
    Instr.wellFormed false (.halt ⟨0#4, 0#4, 0#4, 0#4, 511⟩) = true := by decide

end Sys2Proof.Tests
end

section
/-! Memory writes (spec/20_memory.md R46): where a write goes by its address, and what a later read finds. -/

namespace Sys2Proof.Machine

/-! ## The address map in the terms of the statements -/

/-- R41: the model's validity check fails exactly from `memWords` on. -/
theorem validAddr_eq_false_iff (p : Params) (a : Word) : validAddr p a = false ↔ p.memWords ≤ a.toNat := by
  rw [← Bool.not_eq_true, validAddr_iff, not_lt]

/-- R51: the model's check for plain storage is `IsPlain`. -/
theorem plainAddr_iff_isPlain (p : Params) (a : Word) : plainAddr p a = true ↔ IsPlain p a := by
  rw [plainAddr_iff, validAddr_iff, ← Bool.not_eq_true, inWindow_iff]

/-- R44: the model's two checks for a device access are together `IsWindow`. -/
theorem validAddr_inWindow_iff_isWindow (p : Params) (a : Word) :
    validAddr p a = true ∧ inWindow p a = true ↔ IsWindow p a := by
  rw [validAddr_iff, inWindow_iff]

/-! ## The write, by where its address lies -/

/-- R46: a write at a plain address replaces the one cell. -/
theorem State.memWrite_plain (s : State) (a v : Word) (h : plainAddr s.cfg a = true) :
    s.memWrite a v = some { s with mem := s.mem.write a.toNat v } := by
  obtain ⟨hvalid, hwindow⟩ := (plainAddr_iff s.cfg a).mp h
  simp [State.memWrite, hvalid, hwindow]

/-- R46: a write in the window is a device write. -/
theorem State.memWrite_window (s : State) (a v : Word) (hv : validAddr s.cfg a = true) (hw : inWindow s.cfg a = true) :
    s.memWrite a v = some (s.deviceWrite a v) := by
  simp [State.memWrite, hv, hw]

/-! ## A read after a write -/

/-- R46: a write at a plain address leaves the word in its cell. -/
theorem State.memWrite_mem_read_self {s t : State} {a v : Word} (h : s.memWrite a v = some t)
    (ha : plainAddr s.cfg a = true) : t.mem.read a.toNat = v := by
  rw [State.memWrite_plain s a v ha] at h
  cases h
  exact Memory.read_write_self s.mem a.toNat v

/-- R46: no write, to plain memory or to the device, changes a cell of another address. -/
theorem State.memWrite_mem_read_other {s t : State} {a v : Word} (h : s.memWrite a v = some t) {n : Nat}
    (hn : n ≠ a.toNat) : t.mem.read n = s.mem.read n := by
  obtain ⟨-, ⟨-, rfl⟩ | ⟨-, rfl⟩⟩ := State.memWrite_cases h
  · exact Memory.read_write_other s.mem a.toNat n v hn
  · rfl

/-- R46: the word written at a plain address is read back there. -/
theorem State.memRead_memWrite_self {s t : State} {a v : Word} (h : s.memWrite a v = some t)
    (ha : plainAddr s.cfg a = true) : t.memRead a = some (v, t) := by
  obtain ⟨-, -, -, hcfg, -⟩ := State.memWrite_frame h
  rw [State.memRead_plain t a (hcfg ▸ ha), State.memWrite_mem_read_self h ha]

/-- R46: after any write, every other plain address reads as before. -/
theorem State.memRead_memWrite_other {s t : State} {a b v : Word} (h : s.memWrite a v = some t) (hba : b ≠ a)
    (hb : plainAddr s.cfg b = true) : t.memRead b = some (s.mem.read b.toNat, t) := by
  obtain ⟨-, -, -, hcfg, -⟩ := State.memWrite_frame h
  have hne : b.toNat ≠ a.toNat := fun e => hba (BitVec.eq_of_toNat_eq e)
  rw [State.memRead_plain t b (hcfg ▸ hb), State.memWrite_mem_read_other h hne]

/-! ## The obligation -/

/-- Settles O44, by the three places an address can lie in: outside memory, in the window, in plain memory. -/
theorem memWriteThenRead : Obligations.MemWriteThenRead := by
  intro s a v
  refine ⟨fun hout => ?outside, fun hwin => ?window, fun hplain => ?plain⟩
  case outside => exact (s.memWrite_eq_none a v).mpr ((validAddr_eq_false_iff s.cfg a).mpr hout)
  case window =>
    obtain ⟨hvalid, hinside⟩ := (validAddr_inWindow_iff_isWindow s.cfg a).mpr hwin
    exact ⟨s.deviceWrite a v, s.memWrite_window a v hvalid hinside, s.deviceWrite_deviceLog a v,
      s.readReg_deviceWrite a v, s.deviceWrite_cc a v, fun _ => rfl, rfl, rfl, rfl⟩
  case plain =>
    have ha : plainAddr s.cfg a = true := (plainAddr_iff_isPlain s.cfg a).mpr hplain
    have hwrite := s.memWrite_plain a v ha
    obtain ⟨hregs, hcc, hrun, hcfg, hin, hdraws, hevents⟩ := State.memWrite_frame hwrite
    exact ⟨_, hwrite, State.memRead_memWrite_self hwrite ha,
      fun b hba hb => State.memRead_memWrite_other hwrite hba ((plainAddr_iff_isPlain s.cfg b).mpr hb),
      State.readReg_congr hregs, hcc, ⟨rfl, hin, hdraws⟩, hrun, hcfg, hevents⟩

end Sys2Proof.Machine
end

section
/-! Bit fields (spec/30_encoding.md R60 to R64): the bits of an insert, and an extract as a slice of the word. -/

namespace Sys2Proof

/-! ## Insert and extract, bit by bit -/

/-- R60: a valid field lies inside the word. -/
theorem BitField.valid_iff (F : BitField) : F.valid = true ↔ F.lo ≤ F.hi ∧ F.hi ≤ 31 := by
  simp [BitField.valid]

/-- R60: the bits of the right-justified mask. -/
theorem BitField.getLsbD_mask (F : BitField) {k : Nat} (hk : k < 32) : F.mask.getLsbD k = decide (k < F.width) := by
  rw [BitField.mask, BitVec.getLsbD_ofNat, Nat.testBit_two_pow_sub_one, decide_eq_true hk, Bool.true_and]

/-- R60: the bits of the mask at the field's position. -/
theorem BitField.getLsbD_pmask (F : BitField) (hF : F.valid = true) {k : Nat} (hk : k < 32) :
    F.pmask.getLsbD k = decide (F.lo ≤ k ∧ k ≤ F.hi) := by
  obtain ⟨hle, -⟩ := F.valid_iff.mp hF
  rw [BitField.pmask, BitVec.getLsbD_shiftLeft, F.getLsbD_mask (by omega), BitField.width,
    Bool.eq_iff_iff]
  simp
  omega

/-- R61: inside the field an insert has the value's bits, outside it the word's. -/
theorem BitField.getLsbD_insert (F : BitField) (hF : F.valid = true) (v : Int) (w : Word) {k : Nat} (hk : k < 32) :
    (F.insert v w).getLsbD k =
      if F.lo ≤ k ∧ k ≤ F.hi then (wrap v).getLsbD (k - F.lo) else w.getLsbD k := by
  obtain ⟨hle, -⟩ := F.valid_iff.mp hF
  have hshift : ((wrap v &&& F.mask) <<< F.lo).getLsbD k =
      (decide (F.lo ≤ k ∧ k ≤ F.hi) && (wrap v).getLsbD (k - F.lo)) := by
    rw [← F.getLsbD_pmask hF hk, BitField.pmask, BitVec.getLsbD_shiftLeft, BitVec.getLsbD_shiftLeft,
      BitVec.getLsbD_and]
    simp [Bool.and_comm, Bool.and_left_comm]
  rw [BitField.insert, BitVec.getLsbD_or, BitVec.getLsbD_and, BitVec.getLsbD_not, F.getLsbD_pmask hF hk, hshift]
  split
  case isTrue hin =>
    rw [decide_eq_true hin]
    simp
  case isFalse hout =>
    rw [decide_eq_false hout]
    simp [hk]

/-- R62: the bits of a field's content. -/
theorem BitField.testBit_extract (F : BitField) (w : Word) (k : Nat) :
    (F.extract w).testBit k = (decide (k < F.width) && w.getLsbD (F.lo + k)) := by
  rw [BitField.extract, BitVec.testBit_toNat, BitVec.getLsbD_and, BitVec.getLsbD_ushiftRight]
  by_cases hk : k < 32
  · rw [F.getLsbD_mask hk, Bool.and_comm]
  · simp [BitVec.getLsbD_of_ge w (F.lo + k) (by omega)]

/-- R62: a field's content is the slice of `width` bits from `lo`. -/
theorem BitField.extract_eq_extractLsb' (F : BitField) (w : Word) :
    F.extract w = (w.extractLsb' F.lo F.width).toNat := by
  apply Nat.eq_of_testBit_eq
  intro k
  rw [F.testBit_extract, BitVec.testBit_toNat, BitVec.getLsbD_extractLsb']

/-- R62: a field's content as a quotient and a remainder. -/
theorem BitField.extract_eq_div_mod (F : BitField) (w : Word) :
    F.extract w = w.toNat / 2 ^ F.lo % 2 ^ F.width := by
  rw [F.extract_eq_extractLsb', BitVec.extractLsb'_toNat, Nat.shiftRight_eq_div_pow]

/-- R62: a field's content fits in the field's width. -/
theorem BitField.extract_lt (F : BitField) (w : Word) : F.extract w < 2 ^ F.width := by
  rw [F.extract_eq_extractLsb']
  exact BitVec.isLt _

/-! ## The laws of R64 -/

/-- R61: the low `width` bits of an integer's word are the integer's remainder. -/
theorem wrap_toNat_mod_two_pow (v : Int) {n : Nat} (hn : n ≤ 32) :
    (wrap v).toNat % 2 ^ n = (v % 2 ^ n).toNat := by
  have hdvd : (2 : Int) ^ n ∣ 2 ^ 32 := pow_dvd_pow 2 hn
  have hcast : (((wrap v).toNat % 2 ^ n : Nat) : Int) = v % 2 ^ n := by
    rw [wrap, BitVec.toNat_ofInt, Int.natCast_emod, Int.toNat_of_nonneg (Int.emod_nonneg v (by decide)),
      Nat.cast_pow, Nat.cast_pow, Nat.cast_ofNat, Int.emod_emod_of_dvd v hdvd]
  rw [← hcast, Int.toNat_natCast]

/-- R64 (a): a field gives back what was inserted, cut to the field's width. -/
theorem BitField.extract_insert (F : BitField) (hF : F.valid = true) (v : Int) (w : Word) :
    F.extract (F.insert v w) = (v % 2 ^ F.width).toNat := by
  obtain ⟨hle, hhi⟩ := F.valid_iff.mp hF
  have hwidth : F.width = F.hi - F.lo + 1 := rfl
  rw [← wrap_toNat_mod_two_pow v (by omega)]
  apply Nat.eq_of_testBit_eq
  intro k
  rw [F.testBit_extract, Nat.testBit_mod_two_pow, BitVec.testBit_toNat]
  by_cases hk : k < F.width
  · rw [F.getLsbD_insert hF v w (by omega), if_pos (by omega), Nat.add_sub_cancel_left]
  · simp [hk]

/-- R64 (b): an insert into one field leaves the content of a field beside it as it was. -/
theorem BitField.extract_insert_of_disjoint (F G : BitField) (hF : F.valid = true) (hG : G.valid = true)
    (hdisj : F.hi < G.lo ∨ G.hi < F.lo) (v : Int) (w : Word) : F.extract (G.insert v w) = F.extract w := by
  obtain ⟨hle, hhi⟩ := F.valid_iff.mp hF
  have hwidth : F.width = F.hi - F.lo + 1 := rfl
  apply Nat.eq_of_testBit_eq
  intro k
  rw [F.testBit_extract, F.testBit_extract]
  by_cases hk : k < F.width
  · rw [G.getLsbD_insert hG v w (by omega), if_neg (by omega)]
  · simp [hk]

/-! ## Sign extension (R63, R64 (c)) -/

/-- The top bit of a value of `n + 1` bits is 0 exactly in the lower half. -/
theorem testBit_top_eq_false_iff {f n : Nat} (hf : f < 2 ^ (n + 1)) : f.testBit n = false ↔ f < 2 ^ n := by
  refine ⟨fun hbit => ?_, Nat.testBit_lt_two_pow⟩
  by_contra hge
  simp [Nat.testBit_of_two_pow_le_and_two_pow_add_one_gt (not_lt.mp hge) hf] at hbit

/-- R63: sign extension is the two's complement reading of a bit vector. -/
theorem signExtend_toNat {n : Nat} (x : BitVec (n + 1)) : signExtend x.toNat (n + 1) = x.toInt := by
  rw [signExtend, BitVec.toInt_eq_toNat_cond, Nat.add_sub_cancel]
  have hhalf : x.toNat < 2 ^ n ↔ 2 * x.toNat < 2 ^ (n + 1) := by omega
  simp [hhalf]

/-- R64 (c): the sign of a sign extension is its top bit, and a negative one is the value less `2 ^ width`. -/
theorem signExtend_sign {f n : Nat} (hf : f < 2 ^ (n + 1)) :
    (0 ≤ signExtend f (n + 1) ↔ f.testBit n = false) ∧
      (f.testBit n = true → signExtend f (n + 1) = (f : Int) - 2 ^ (n + 1)) := by
  rw [← Bool.not_eq_false, testBit_top_eq_false_iff hf, signExtend, Nat.add_sub_cancel]
  have hneg : (f : Int) < 2 ^ (n + 1) := by exact_mod_cast hf
  split
  case isTrue hlow => exact ⟨by simp [hlow], fun hhigh => absurd hlow hhigh⟩
  case isFalse hhigh => exact ⟨by simp [hhigh, hneg], fun _ => rfl⟩

/-! ## The obligation -/

/-- Settles O5, law by law. -/
theorem bitFieldLaws : Obligations.BitFieldLaws := by
  refine ⟨fun F v w hF hv => ?fits, fun F v w k hF hk hout => ?outside, fun F v w hF => ?cut,
    fun width f hw hf => ?sign⟩
  case fits =>
    rw [F.extract_insert hF]
    have hfits : ((v % 2 ^ F.width : Nat) : Int) = (v : Int) % 2 ^ F.width := by push_cast; rfl
    rw [← hfits, Int.toNat_natCast, Nat.mod_eq_of_lt hv]
  case outside => rw [F.getLsbD_insert hF v w hk, if_neg (by omega)]
  case cut => rw [F.extract_insert hF, Int.toNat_of_nonneg (Int.emod_nonneg v (by positivity))]
  case sign =>
    obtain ⟨n, rfl⟩ : ∃ n, width = n + 1 := ⟨width - 1, by omega⟩
    exact signExtend_sign hf

end Sys2Proof
end

section
/-! The format (spec/30_encoding.md R66, R77): a word is the bitwise or of its six fields, and so is an encoding. -/

namespace Sys2Proof

/-! ## A word as its six fields -/

/-- The word up to the top of a field is the field's content above the rest. -/
theorem BitField.toNat_mod_succ_hi (F : BitField) (hF : F.valid = true) (w : Word) :
    w.toNat % 2 ^ (F.hi + 1) = F.extract w * 2 ^ F.lo ||| w.toNat % 2 ^ F.lo := by
  obtain ⟨hle, -⟩ := F.valid_iff.mp hF
  have hhi : F.hi + 1 = F.lo + F.width := by
    rw [BitField.width]
    omega
  rw [hhi, pow_add, Nat.mod_mul, ← F.extract_eq_div_mod, Nat.add_comm,
    Nat.two_pow_add_eq_or_of_lt (Nat.mod_lt _ (by positivity)), Nat.mul_comm]

/-- The bitwise or of six field contents at their places in the format. -/
def packFields (op cond target src1 src2 offset : Nat) : Nat :=
  (op * 2 ^ 26) ||| (cond * 2 ^ 22) ||| (target * 2 ^ 18) ||| (src1 * 2 ^ 14) ||| (src2 * 2 ^ 10) ||| offset

/-- R66: the six fields are the whole word; each of them is split off from the top of what is left. -/
theorem toNat_eq_packFields (w : Word) :
    w.toNat = packFields (opField.extract w) (condField.extract w) (targetField.extract w) (src1Field.extract w)
      (src2Field.extract w) (offsetField.extract w) := by
  have hop : w.toNat % 2 ^ 32 = opField.extract w * 2 ^ 26 ||| w.toNat % 2 ^ 26 :=
    opField.toNat_mod_succ_hi (by decide) w
  have hcond : w.toNat % 2 ^ 26 = condField.extract w * 2 ^ 22 ||| w.toNat % 2 ^ 22 :=
    condField.toNat_mod_succ_hi (by decide) w
  have htarget : w.toNat % 2 ^ 22 = targetField.extract w * 2 ^ 18 ||| w.toNat % 2 ^ 18 :=
    targetField.toNat_mod_succ_hi (by decide) w
  have hsrc1 : w.toNat % 2 ^ 18 = src1Field.extract w * 2 ^ 14 ||| w.toNat % 2 ^ 14 :=
    src1Field.toNat_mod_succ_hi (by decide) w
  have hsrc2 : w.toNat % 2 ^ 14 = src2Field.extract w * 2 ^ 10 ||| w.toNat % 2 ^ 10 :=
    src2Field.toNat_mod_succ_hi (by decide) w
  have hoffset : offsetField.extract w = w.toNat / 2 ^ 0 % 2 ^ 10 := offsetField.extract_eq_div_mod w
  calc w.toNat
      = w.toNat % 2 ^ 32 := (Nat.mod_eq_of_lt w.isLt).symm
    _ = _ := by
      rw [hop, hcond, htarget, hsrc1, hsrc2, packFields, hoffset, pow_zero, Nat.div_one]
      simp only [Nat.or_assoc]

/-! ## The fields of an encoding -/

/-- R77: each field of an encoding holds its value, cut to the field's width. -/
theorem extract_encodeRaw (n c t a b o : Int) :
    opField.extract (encodeRaw n c t a b o) = (n % 64).toNat ∧
      condField.extract (encodeRaw n c t a b o) = (c % 16).toNat ∧
      targetField.extract (encodeRaw n c t a b o) = (t % 16).toNat ∧
      src1Field.extract (encodeRaw n c t a b o) = (a % 16).toNat ∧
      src2Field.extract (encodeRaw n c t a b o) = (b % 16).toNat ∧
      offsetField.extract (encodeRaw n c t a b o) = (o % 1024).toNat := by
  refine ⟨?op, ?cond, ?target, ?src1, ?src2, ?offset⟩ <;>
    simp (disch := decide) only [encodeRaw, BitField.extract_insert_of_disjoint, BitField.extract_insert] <;> rfl

/-- R72: an opcode number fits its field. -/
theorem Opcode.number_lt (op : Opcode) : op.number < 64 := by
  cases op <;> decide

/-- A mask or a register index is not cut by its field. -/
theorem toNat_emod_sixteen (x : BitVec 4) : ((x.toNat : Int) % 16).toNat = x.toNat := by
  omega

/-- R77: the fields of an instruction's encoding are the instruction's; only the offset can be cut. -/
theorem extract_encode (i : Instr) :
    opField.extract (encode i) = i.op.number ∧
      condField.extract (encode i) = i.fields.cond.toNat ∧
      targetField.extract (encode i) = i.fields.target.toNat ∧
      src1Field.extract (encode i) = i.fields.src1.toNat ∧
      src2Field.extract (encode i) = i.fields.src2.toNat ∧
      offsetField.extract (encode i) = (i.fields.offset % 1024).toNat := by
  have hop : ((i.op.number : Int) % 64).toNat = i.op.number := by
    have := i.op.number_lt
    omega
  simpa only [encode, hop, toNat_emod_sixteen] using extract_encodeRaw i.op.number i.fields.cond.toNat
    i.fields.target.toNat i.fields.src1.toNat i.fields.src2.toNat i.fields.offset

/-- R77: an instruction's encoding is the format's formula. -/
theorem encode_toNat (i : Instr) :
    (encode i).toNat = packFields i.op.number i.fields.cond.toNat i.fields.target.toNat i.fields.src1.toNat
      i.fields.src2.toNat (i.fields.offset % 1024).toNat := by
  obtain ⟨hop, hcond, htarget, hsrc1, hsrc2, hoffset⟩ := extract_encode i
  rw [toNat_eq_packFields, hop, hcond, htarget, hsrc1, hsrc2, hoffset]

/-! ## The obligation -/

/-- Settles O6: an encoding is the bitwise or of its fields, and what its fields hold is known. -/
theorem encodeTruncatesEveryField : Obligations.EncodeTruncatesEveryField := by
  refine ⟨fun n c t a b o => ?_, fun i => encode_toNat i⟩
  obtain ⟨hop, hcond, htarget, hsrc1, hsrc2, hoffset⟩ := extract_encodeRaw n c t a b o
  rw [toNat_eq_packFields, hop, hcond, htarget, hsrc1, hsrc2, hoffset, packFields]

end Sys2Proof
end

section
/-! Decode and encode (spec/30_encoding.md R72 to R78): the opcode map, decode by its two outcomes, the inverse laws. -/

namespace Sys2Proof

open Machine (AssignedNumber)

/-! ## The opcode map -/

/-- R72: the lookup table is the inverse of the numbering. -/
theorem Opcode.ofNumber?_eq_some_iff (n : Nat) (op : Opcode) : Opcode.ofNumber? n = some op ↔ op.number = n := by
  constructor
  · intro h
    unfold Opcode.ofNumber? at h
    split at h <;> cases h <;> rfl
  · rintro rfl
    cases op <;> rfl

/-- R73: a lookup finds an opcode exactly where it has the number and the setting has the opcode. -/
theorem Opcode.lookup_eq_some_iff (ext : Bool) (n : Nat) (op : Opcode) :
    Opcode.lookup ext n = some op ↔ op.number = n ∧ op.assigned ext = true := by
  rw [← Opcode.ofNumber?_eq_some_iff, Opcode.lookup]
  cases Opcode.ofNumber? n with
  | none => simp
  | some found =>
    rw [Option.ite_none_right_eq_some]
    constructor
    · rintro ⟨hassigned, ⟨⟩⟩
      exact ⟨rfl, hassigned⟩
    · rintro ⟨⟨⟩, hassigned⟩
      exact ⟨hassigned, rfl⟩

/-- R72, R73: the number of an opcode that the setting has is assigned. -/
theorem Opcode.assignedNumber_number {ext : Bool} {op : Opcode} (h : op.assigned ext = true) :
    AssignedNumber ext op.number := by
  revert ext
  cases op <;> decide

/-- R72, R73: every assigned number belongs to an opcode that the setting has. -/
theorem Opcode.exists_lookup_of_assignedNumber {ext : Bool} {n : Nat} (h : AssignedNumber ext n) :
    ∃ op, Opcode.lookup ext n = some op := by
  have hle : n ≤ 13 := by
    rcases h with h | h | ⟨-, h⟩ <;> omega
  have htable : ∀ ext, ∀ n ≤ 13, AssignedNumber ext n → (Opcode.lookup ext n).isSome = true := by decide
  exact Option.isSome_iff_exists.mp (htable ext n hle h)

/-- R72, R73: a lookup fails exactly at an unassigned number. -/
theorem Opcode.lookup_eq_none_iff (ext : Bool) (n : Nat) : Opcode.lookup ext n = none ↔ ¬AssignedNumber ext n := by
  constructor
  · intro hnone hassigned
    obtain ⟨op, hop⟩ := Opcode.exists_lookup_of_assignedNumber hassigned
    rw [hop] at hnone
    cases hnone
  · intro hunassigned
    refine Option.eq_none_iff_forall_ne_some.mpr fun op hop => hunassigned ?_
    obtain ⟨rfl, hassigned⟩ := (Opcode.lookup_eq_some_iff ext n op).mp hop
    exact Opcode.assignedNumber_number hassigned

/-- R75: the unassigned numbers: the gap at 4, all from 14 on, and the extension's where it is absent. -/
theorem not_assignedNumber_iff (ext : Bool) (n : Nat) :
    ¬AssignedNumber ext n ↔ n = 4 ∨ 14 ≤ n ∨ (ext = false ∧ 8 ≤ n ∧ n ≤ 13) := by
  cases ext <;> simp [AssignedNumber] <;> omega

/-! ## An instruction is its opcode and its fields -/

@[simp] theorem Instr.make_op (op : Opcode) (f : Fields) : (Instr.make op f).op = op := by
  cases op <;> rfl

@[simp] theorem Instr.make_fields (op : Opcode) (f : Fields) : (Instr.make op f).fields = f := by
  cases op <;> rfl

theorem Instr.make_op_fields (i : Instr) : Instr.make i.op i.fields = i := by
  cases i <;> rfl

/-- R67: a record with a given opcode and given fields. -/
theorem Instr.eq_make_iff (i : Instr) (op : Opcode) (f : Fields) :
    i = Instr.make op f ↔ i.op = op ∧ i.fields = f := by
  refine ⟨?_, ?_⟩
  · rintro rfl
    simp
  · rintro ⟨rfl, rfl⟩
    exact i.make_op_fields.symm

/-! ## Decode by its two outcomes -/

/-- R74: decode answers the record of an assigned opcode number and the word's fields. -/
theorem decode_eq_ok_iff (ext : Bool) (w : Word) (i : Instr) :
    decode ext w = .ok i ↔
      i.op.number = opField.extract w ∧ i.op.assigned ext = true ∧ i.fields = decodeFields w := by
  rw [← and_assoc, ← Opcode.lookup_eq_some_iff, decode]
  cases Opcode.lookup ext (opField.extract w) with
  | none => simp
  | some op => simp [eq_comm (b := i), Instr.eq_make_iff, eq_comm (a := op)]

/-- R75: decode answers an error exactly at an unassigned opcode number, and names the word and its `op` field. -/
theorem decode_eq_error_iff (ext : Bool) (w : Word) (e : DecodeError) :
    decode ext w = .error e ↔
      ¬AssignedNumber ext (opField.extract w) ∧ e = .unassignedOpcode w (opField.extract w) := by
  rw [← Opcode.lookup_eq_none_iff, decode]
  cases Opcode.lookup ext (opField.extract w) with
  | none => simp [eq_comm]
  | some op => simp

/-- R74: a word with an assigned opcode number decodes. -/
theorem decode_ok_of_assignedNumber {ext : Bool} {w : Word} (h : AssignedNumber ext (opField.extract w)) :
    ∃ i, decode ext w = .ok i := by
  obtain ⟨op, hop⟩ := Opcode.exists_lookup_of_assignedNumber h
  exact ⟨_, by rw [decode, hop]⟩

/-- R74: the five fields beside the opcode as slices of the word. -/
theorem decodeFields_eq_extractLsb' (w : Word) :
    decodeFields w = ⟨w.extractLsb' 22 4, w.extractLsb' 18 4, w.extractLsb' 14 4, w.extractLsb' 10 4,
      (w.extractLsb' 0 10).toInt⟩ := by
  rw [decodeFields, ← signExtend_toNat (w.extractLsb' 0 10)]
  simp only [BitField.extract_eq_extractLsb', BitVec.ofNat_toNat]
  rfl

/-- R75: the `op` field is what stands above the low 26 bits. -/
theorem opField_extract (w : Word) : opField.extract w = w.toNat / 2 ^ 26 := by
  have hop : opField.extract w = w.toNat / 2 ^ 26 % 2 ^ 6 := opField.extract_eq_div_mod w
  omega

/-! ## The two inverse laws (R78) -/

/-- R67: the content of a four-bit field is a mask or a register index as it stands. -/
theorem BitField.toNat_ofNat_extract (F : BitField) (hF : F.width = 4) (w : Word) :
    (BitVec.ofNat 4 (F.extract w)).toNat = F.extract w := by
  rw [BitVec.toNat_ofNat, Nat.mod_eq_of_lt (hF ▸ F.extract_lt w)]

/-- R69: the format's offset field reads back an offset that fits. -/
theorem signExtend_emod {v : Int} (hlo : -512 ≤ v) (hhi : v ≤ 511) :
    signExtend (v % 1024).toNat offsetField.width = v := by
  have hwidth : offsetField.width = 10 := rfl
  rw [hwidth, signExtend]
  split <;> omega

/-- R69: a sign-extended content of the offset field fits, and is cut to the content again. -/
theorem signExtend_offset {f : Nat} (hf : f < 1024) :
    -512 ≤ signExtend f offsetField.width ∧ signExtend f offsetField.width ≤ 511 ∧
      (signExtend f offsetField.width % 1024).toNat = f := by
  have hwidth : offsetField.width = 10 := rfl
  rw [hwidth, signExtend]
  split <;> omega

/-- R69: the offset check as two bounds. -/
theorem Fields.offsetFits_iff (f : Fields) : f.offsetFits = true ↔ -512 ≤ f.offset ∧ f.offset ≤ 511 := by
  simp [Fields.offsetFits]

/-- R78 (a): the representable instructions. -/
theorem Instr.wellFormed_iff (ext : Bool) (i : Instr) :
    i.wellFormed ext = true ↔ i.op.assigned ext = true ∧ i.fields.offsetFits = true := by
  simp [Instr.wellFormed]

/-- R78 (a): the fields of an encoding decode to the instruction's, if its offset fits. -/
theorem decodeFields_encode {i : Instr} (h : i.fields.offsetFits = true) : decodeFields (encode i) = i.fields := by
  obtain ⟨hlo, hhi⟩ := i.fields.offsetFits_iff.mp h
  obtain ⟨-, hcond, htarget, hsrc1, hsrc2, hoffset⟩ := extract_encode i
  rw [decodeFields, hcond, htarget, hsrc1, hsrc2, hoffset, signExtend_emod hlo hhi]
  simp

/-- R78 (a): decode undoes encode on the representable instructions. -/
theorem decode_encode {ext : Bool} {i : Instr} (h : i.wellFormed ext = true) : decode ext (encode i) = .ok i := by
  obtain ⟨hassigned, hfits⟩ := (Instr.wellFormed_iff ext i).mp h
  obtain ⟨hop, -⟩ := extract_encode i
  exact (decode_eq_ok_iff ext (encode i) i).mpr ⟨hop.symm, hassigned, (decodeFields_encode hfits).symm⟩

/-- R78 (b): encode undoes decode on the words that decode. -/
theorem encode_of_decode {ext : Bool} {w : Word} {i : Instr} (h : decode ext w = .ok i) : encode i = w := by
  obtain ⟨hop, -, hfields⟩ := (decode_eq_ok_iff ext w i).mp h
  obtain ⟨-, -, hoffset⟩ := signExtend_offset (offsetField.extract_lt w)
  apply BitVec.eq_of_toNat_eq
  rw [encode_toNat, toNat_eq_packFields w, hop, hfields, decodeFields]
  rw [condField.toNat_ofNat_extract rfl, targetField.toNat_ofNat_extract rfl, src1Field.toNat_ofNat_extract rfl,
    src2Field.toNat_ofNat_extract rfl, hoffset]

/-- R78 (b): what decode answers is representable. -/
theorem wellFormed_of_decode {ext : Bool} {w : Word} {i : Instr} (h : decode ext w = .ok i) :
    i.wellFormed ext = true := by
  obtain ⟨-, hassigned, hfields⟩ := (decode_eq_ok_iff ext w i).mp h
  obtain ⟨hlo, hhi, -⟩ := signExtend_offset (offsetField.extract_lt w)
  rw [Instr.wellFormed_iff, hfields]
  exact ⟨hassigned, (Fields.offsetFits_iff _).mpr ⟨hlo, hhi⟩⟩

/-! ## The obligations -/

/-- Settles O2: the fields of an encoding are the instruction's, and a word is the bitwise or of its fields. -/
theorem decodeAndEncodeAgree : Obligations.DecodeAndEncodeAgree :=
  ⟨fun _ _ h => decode_encode h, fun _ _ _ h => ⟨encode_of_decode h, wellFormed_of_decode h⟩⟩

/-- Settles O3, from the one case in which decode answers an error. -/
theorem wordsThatDoNotDecode : Obligations.WordsThatDoNotDecode := by
  refine ⟨fun ext w => ?named, fun w => ?ranges⟩
  case named =>
    rw [← opField_extract, decode_eq_error_iff, and_iff_left rfl, not_assignedNumber_iff]
  case ranges =>
    simp only [decode_eq_error_iff, exists_eq_right, not_assignedNumber_iff, opField_extract, Bool.true_eq_false,
      false_and, or_false]
    omega

/-- Settles O4: the record that decode answers has the word's own fields, which are slices of it. -/
theorem decodeExtractsEveryField : Obligations.DecodeExtractsEveryField := by
  intro ext w
  have hop : opField.extract w = (w.extractLsb' 26 6).toNat := opField.extract_eq_extractLsb' w
  rw [← hop]
  refine ⟨fun hassigned => ?assigned, fun hunassigned => ?unassigned⟩
  case assigned =>
    obtain ⟨i, hi⟩ := decode_ok_of_assignedNumber hassigned
    obtain ⟨hnumber, -, hfields⟩ := (decode_eq_ok_iff ext w i).mp hi
    rw [decodeFields_eq_extractLsb'] at hfields
    exact ⟨i, hi, hnumber, by simp [hfields]⟩
  case unassigned => exact (decode_eq_error_iff ext w _).mpr ⟨hunassigned, rfl⟩

end Sys2Proof
end

section
/-! Skipped instructions (spec/40_execution_cycle.md R94, R95): when an instruction is skipped, and what is left then. -/

namespace Sys2Proof.Machine

/-- R94: the model's predicate fails exactly on the instructions the statements call not executed. -/
theorem executes_eq_false_iff (f : Fields) (s : State) : executes f s = false ↔ ¬Executed f s := by
  rw [← Bool.not_eq_true, executes_iff]

/-- R25, R95: the advance alone is all that a skipped instruction may do. -/
theorem skipEffect_advance (s : State) : SkipEffect s s.advance := by
  have hmem : SameMemory s s.advance := fun a => by rw [State.advance_mem]
  have hdevice : SameDevice s s.advance :=
    ⟨State.advance_deviceLog s, State.advance_deviceIn s, State.advance_draws s⟩
  have hcontrol : SameControl s s.advance :=
    ⟨State.advance_runState s, State.advance_cfg s, State.advance_events s⟩
  exact ⟨State.readReg_advance s, State.advance_cc s, hmem, hdevice, hcontrol⟩

/-- Settles O29: whatever its opcode, a skipped instruction answers the advanced state. -/
theorem skippedInstructionOnlyAdvances : Obligations.SkippedInstructionOnlyAdvances := by
  intro i s hskip
  have hexec : exec i s = .next s.advance := exec_skipped i s ((executes_eq_false_iff i.fields s).mpr hskip)
  exact ⟨s.advance, hexec, skipEffect_advance s⟩

end Sys2Proof.Machine
end

section
/-! The encodings of the instruction rules (spec/41_alu_arithmetic.md R114): an opcode's word and the other fields. -/

namespace Sys2Proof

open Machine (fieldBits)

/-- R69: the low ten bits of an offset's word are the offset's remainder. -/
theorem toNat_ofInt_and_offsetMask (v : Int) : (BitVec.ofInt 32 v &&& 0x3FF#32).toNat = (v % 1024).toNat := by
  have hmask : (0x3FF#32).toNat = 2 ^ 10 - 1 := rfl
  rw [BitVec.toNat_and, hmask, Nat.and_two_pow_sub_one_eq_mod]
  exact wrap_toNat_mod_two_pow v (by decide)

/-- A four-bit field moved to its place loses no bit. -/
theorem toNat_setWidth_shiftLeft (x : BitVec 4) {n : Nat} (hn : n ≤ 28) :
    (x.setWidth 32 <<< n).toNat = x.toNat * 2 ^ n := by
  have hfits : x.toNat * 2 ^ n < 2 ^ 32 :=
    calc x.toNat * 2 ^ n < 2 ^ 4 * 2 ^ n := Nat.mul_lt_mul_of_pos_right x.isLt (by positivity)
      _ = 2 ^ (4 + n) := (pow_add 2 4 n).symm
      _ ≤ 2 ^ 32 := Nat.pow_le_pow_right (by decide) (by omega)
  rw [BitVec.toNat_shiftLeft, BitVec.toNat_setWidth_of_le (by decide), Nat.shiftLeft_eq, Nat.mod_eq_of_lt hfits]

/-- R114: the fields beside the opcode are the format's, with 0 in the opcode's place. -/
theorem fieldBits_toNat (f : Fields) :
    (fieldBits f).toNat =
      packFields 0 f.cond.toNat f.target.toNat f.src1.toNat f.src2.toNat (f.offset % 1024).toNat := by
  simp only [fieldBits, packFields, BitVec.toNat_or, toNat_ofInt_and_offsetMask, zero_mul, Nat.zero_or]
  rw [toNat_setWidth_shiftLeft f.cond (by decide), toNat_setWidth_shiftLeft f.target (by decide),
    toNat_setWidth_shiftLeft f.src1 (by decide), toNat_setWidth_shiftLeft f.src2 (by decide)]

/-- R72, R114: an instruction's encoding is its opcode's word with the other fields in their places. -/
theorem encode_make (op : Opcode) (f : Fields) {w : Word} (hw : w.toNat = op.number * 2 ^ 26) :
    encode (Instr.make op f) = w ||| fieldBits f := by
  apply BitVec.eq_of_toNat_eq
  rw [encode_toNat, Instr.make_op, Instr.make_fields, BitVec.toNat_or, hw, fieldBits_toNat]
  simp only [packFields, zero_mul, Nat.zero_or, Nat.or_assoc]

end Sys2Proof
end

section
/-! The flags of the ALU block (spec/41_alu_arithmetic.md R111, R112): the sign or zero flag of the truncated result,
and V in exactly the three overflow cases. -/

namespace Sys2Proof.Machine

/-! ## The sign or zero flag -/

/-- R111: a zero word has Z. -/
@[simp] theorem szp_zero : szp 0#32 = 2#4 := rfl

/-- R111: a word with bit 31 set has M. -/
theorem szp_of_sign {r : Word} (hr : r ≠ 0#32) (hsign : r.getLsbD 31 = true) : szp r = 1#4 := by
  have hmsb : r.msb = true := by rw [BitVec.msb_eq_getLsbD_last, hsign]
  rw [szp, if_neg hr, if_pos hmsb, flagM]

/-- R111: any other word has P. -/
theorem szp_of_no_sign {r : Word} (hr : r ≠ 0#32) (hsign : r.getLsbD 31 = false) : szp r = 4#4 := by
  have hmsb : ¬r.msb = true := by rw [BitVec.msb_eq_getLsbD_last, hsign]; decide
  rw [szp, if_neg hr, if_neg hmsb, flagP]

/-- R111: exactly one of M, Z, P. -/
theorem szp_cases (r : Word) : szp r = 1#4 ∨ szp r = 2#4 ∨ szp r = 4#4 := by
  by_cases hr : r = 0#32
  · exact .inr (.inl (hr ▸ szp_zero))
  · cases hsign : r.getLsbD 31 with
    | true => exact .inl (szp_of_sign hr hsign)
    | false => exact .inr (.inr (szp_of_no_sign hr hsign))

/-! ## V beside it -/

@[simp] theorem flagsOf_false (r : Word) : flagsOf r false = szp r := rfl
@[simp] theorem flagsOf_true (r : Word) : flagsOf r true = szp r ||| 8#4 := rfl

/-- R112: V is set exactly where an overflow condition holds. -/
theorem flagsOf_and_flagV_ne_zero_iff (r : Word) (v : Bool) : flagsOf r v &&& 8#4 ≠ 0#4 ↔ v = true := by
  obtain h | h | h := szp_cases r <;> cases v <;> simp [h]

/-- R111: the six values the flags of a result can take. -/
theorem flagsOf_mem (r : Word) (v : Bool) : flagsOf r v ∈ [1#4, 2#4, 4#4, 9#4, 10#4, 12#4] := by
  obtain h | h | h := szp_cases r <;> cases v <;> simp [h]

/-! ## The range of a word -/

/-- R112: the model's range check as two inequalities. -/
theorem outOfRange_iff (e : Int) : outOfRange e = true ↔ e < -2 ^ 31 ∨ 2 ^ 31 - 1 < e := by
  simp [outOfRange]

/-- R11: the signed reading of a word lies in the range. -/
theorem toInt_bounds (a : Word) : -2 ^ 31 ≤ a.toInt ∧ a.toInt ≤ 2 ^ 31 - 1 :=
  ⟨a.le_toInt, Int.le_sub_one_of_lt a.toInt_lt⟩

/-- R11: an integer in the range is the signed reading of its word. -/
theorem wrap_toInt {e : Int} (h : outOfRange e = false) : (wrap e).toInt = e := by
  rw [← Bool.not_eq_true, outOfRange_iff, not_or, not_lt, not_lt] at h
  exact BitVec.toInt_ofInt_eq_self (by decide) h.1 (Int.lt_of_le_sub_one h.2)

/-! ## The quotient that does not fit -/

/-- R117: floor division by a positive divisor. -/
theorem fdiv_bounds_of_pos (n : Int) {d : Int} (hd : 0 < d) :
    Int.fdiv n d * d ≤ n ∧ n < (Int.fdiv n d + 1) * d := by
  have hnonneg := Int.fmod_nonneg_of_pos n hd
  have hlt := Int.fmod_lt_of_pos n hd
  have hsum := Int.fdiv_mul_add_fmod n d
  constructor <;> linarith

/-- R117: floor division by a negative divisor, from the positive case by turning both signs. -/
theorem fdiv_bounds_of_neg (n : Int) {d : Int} (hd : d < 0) :
    n ≤ Int.fdiv n d * d ∧ (Int.fdiv n d + 1) * d < n := by
  have hturned := fdiv_bounds_of_pos (-n) (d := -d) (by omega)
  rw [Int.neg_fdiv_neg] at hturned
  constructor <;> linarith

/-- R112, R117: the one quotient of two words, the divisor not 0, that is no word. Only the divisor -1 can bring a
quotient out of the range, and only that of the smallest dividend. -/
theorem outOfRange_fdiv_iff (a : Word) {b : Word} (hb : b ≠ 0#32) :
    outOfRange (Int.fdiv a.toInt b.toInt) = true ↔ a = 0x80000000#32 ∧ b = 0xFFFFFFFF#32 := by
  obtain ⟨hlo, hhi⟩ := toInt_bounds a
  have ha' : a = 0x80000000#32 ↔ a.toInt = -2 ^ 31 := BitVec.toInt_inj.symm
  have hb' : b = 0xFFFFFFFF#32 ↔ b.toInt = -1 := BitVec.toInt_inj.symm
  have hb0 : b.toInt ≠ 0 := fun h => hb (BitVec.toInt_inj.mp h)
  rw [outOfRange_iff, ha', hb']
  generalize a.toInt = n at *
  generalize b.toInt = d at *
  generalize hq : Int.fdiv n d = q
  obtain hpos | rfl | hneg : 0 < d ∨ d = -1 ∨ d ≤ -2 := by omega
  case inl =>
    have hfloor := fdiv_bounds_of_pos n hpos
    rw [hq] at hfloor
    have hle : q ≤ 2 ^ 31 - 1 := by nlinarith
    have hge : -2 ^ 31 ≤ q := by nlinarith
    omega
  case inr.inl =>
    have hfloor := fdiv_bounds_of_neg n (d := -1) (by decide)
    rw [hq] at hfloor
    omega
  case inr.inr =>
    have hfloor := fdiv_bounds_of_neg n (d := d) (by omega)
    rw [hq] at hfloor
    have hle : q ≤ 2 ^ 31 - 1 := by nlinarith
    have hge : -2 ^ 31 ≤ q := by nlinarith
    omega

/-! ## The flags by opcode -/

/-- R111, R112: the flags of every ALU result are those of its word, with V as the opcode's overflow case says. -/
theorem aluOp_flags (op : Opcode) (a b : Word) :
    ∃ v : Bool, (v = true ↔ OverflowCase op a b) ∧ (aluOp op a b).2 = flagsOf (aluOp op a b).1 v := by
  cases op with
  | add => exact ⟨outOfRange (a.toInt + b.toInt), by simp [outOfRange_iff, OverflowCase], rfl⟩
  | sub => exact ⟨outOfRange (a.toInt - b.toInt), by simp [outOfRange_iff, OverflowCase], rfl⟩
  | mul => exact ⟨outOfRange (a.toInt * b.toInt), by simp [outOfRange_iff, OverflowCase], rfl⟩
  | div =>
    by_cases hb : b = 0#32
    · exact ⟨true, by simp [hb, OverflowCase], by simp [aluOp, aluDiv, hb]⟩
    · exact ⟨outOfRange (Int.fdiv a.toInt b.toInt), by simp [outOfRange_fdiv_iff a hb, hb, OverflowCase],
        by simp [aluOp, aluDiv, hb, narrow]⟩
  | halt | load | store | and | or | xor | shl | shr | asr => exact ⟨false, by simp [OverflowCase], rfl⟩

/-! ## The obligations -/

/-- Settles O20, from the one form that the flags of every opcode have. -/
theorem flagsFollowTheResult : Obligations.FlagsFollowTheResult := by
  refine ⟨fun r => ⟨fun hr => hr ▸ szp_zero, szp_of_sign, szp_of_no_sign⟩, fun op a b => ?_⟩
  obtain ⟨v, hv, hflags⟩ := aluOp_flags op a b
  rw [← hv, hflags]
  exact ⟨fun hno => by simp [hno], fun hyes => by simp [hyes], flagsOf_mem _ v⟩

/-- Settles O21: bit V of such flags is the overflow case itself. -/
theorem overflowFlagCases : Obligations.OverflowFlagCases := by
  intro op a b
  obtain ⟨v, hv, hflags⟩ := aluOp_flags op a b
  rw [← hv, hflags, flagsOf_and_flagV_ne_zero_iff]

end Sys2Proof.Machine
end

section
/-! ADD, SUB, MUL and DIV (spec/41_alu_arithmetic.md section 2): what an executed ALU instruction leaves, and the
four results. -/

namespace Sys2Proof.Machine

/-! ## What an executed ALU instruction leaves -/

/-- R22, R25, R99, R102: the advance, the flags and the write of the target are all that an ALU instruction does. -/
theorem aluEffect_retire_writeReg (f : Fields) (s : State) (r : Word) (c : FlagMask) :
    AluEffect f s ((s.retire c).writeReg f.target r) r c where
  regs j := s.readReg_retire_writeReg c f.target j r
  cc := rfl
  mem _ := rfl
  device := ⟨rfl, rfl, rfl⟩
  control := ⟨rfl, rfl, rfl⟩

/-- R100: an executed instruction other than LOAD, STORE and HALT writes the ALU's result and flags for its operands. -/
theorem exec_alu_effect {i : Instr} {s : State} {r : Word} {c : FlagMask} (hload : i.op ≠ .load)
    (hstore : i.op ≠ .store) (hhalt : i.op ≠ .halt) (h : Executed i.fields s)
    (halu : aluOp i.op (firstOperand i.fields s) (secondOperand i.fields s) = (r, c)) :
    ∃ t, exec i s = .next t ∧ AluEffect i.fields s t r c := by
  have hoperands : aluOp i.op (operand1 i.fields s) (operand2 i.fields s) = (r, c) := halu
  refine ⟨(s.retire c).writeReg i.fields.target r, ?_, aluEffect_retire_writeReg i.fields s r c⟩
  rw [exec_alu i s hload hstore hhalt, execAlu_executed _ _ _ ((executes_iff i.fields s).mpr h), hoperands]

/-! ## The exact result, truncated -/

/-- R112: a truncated result has V where the exact one does not fit. -/
theorem narrow_eq (e : Int) : narrow e = (BitVec.ofInt 32 e, flagsOfExact e) := by
  rw [narrow, flagsOfExact]
  split
  case isTrue hout => rw [(outOfRange_iff e).mpr hout, flagsOf_true, wrap]
  case isFalse hin => rw [Bool.eq_false_iff.mpr (mt (outOfRange_iff e).mp hin), flagsOf_false, wrap]

/-- R112: an exact result that fits is written with no V. -/
theorem narrow_of_inRange {e : Int} (h : outOfRange e = false) : narrow e = (wrap e, szp (wrap e)) := by
  rw [narrow, h, flagsOf_false]

/-! ## DIV by its three cases -/

/-- R117: a zero divisor gives 0 with Z and V. -/
theorem aluDiv_zero (a : Word) : aluDiv a 0#32 = (0#32, 10#4) := rfl

/-- R117: the one quotient that does not fit gives the smallest word with M and V. -/
theorem aluDiv_min_neg_one : aluDiv 0x80000000#32 0xFFFFFFFF#32 = (0x80000000#32, 9#4) := by decide

/-- R117: any other quotient is its word's signed reading, with no V. -/
theorem aluDiv_of_fits {a b : Word} (hb : b ≠ 0#32) (hfits : ¬(a = 0x80000000#32 ∧ b = 0xFFFFFFFF#32)) :
    ∃ q : Word, aluDiv a b = (q, szp q) ∧ q.toInt = Int.fdiv a.toInt b.toInt := by
  have hrange : outOfRange (Int.fdiv a.toInt b.toInt) = false :=
    Bool.eq_false_iff.mpr (mt (outOfRange_fdiv_iff a hb).mp hfits)
  exact ⟨_, by rw [aluDiv, if_neg hb, narrow_of_inRange hrange], wrap_toInt hrange⟩

/-! ## The obligations -/

/-- Settles O7: the ALU's result for ADD is the truncated exact sum. -/
theorem addWritesTheSum : Obligations.AddWritesTheSum := fun f =>
  ⟨encode_make .add f (by decide), fun _ h =>
    exec_alu_effect (i := .add f) nofun nofun nofun h (narrow_eq _)⟩

/-- Settles O8: the ALU's result for SUB is the truncated exact difference. -/
theorem subWritesTheDifference : Obligations.SubWritesTheDifference := fun f =>
  ⟨encode_make .sub f (by decide), fun _ h =>
    exec_alu_effect (i := .sub f) nofun nofun nofun h (narrow_eq _)⟩

/-- Settles O9: the ALU's result for MUL is the truncated exact product. -/
theorem mulWritesTheLowProduct : Obligations.MulWritesTheLowProduct := fun f =>
  ⟨encode_make .mul f (by decide), fun _ h =>
    exec_alu_effect (i := .mul f) nofun nofun nofun h (narrow_eq _)⟩

/-- Settles O10, by the three cases of the divisor and the dividend. -/
theorem divWritesTheFloorQuotient : Obligations.DivWritesTheFloorQuotient := by
  intro f
  refine ⟨encode_make .div f (by decide), fun s h => ?_⟩
  have effect {r : Word} {c : FlagMask} (halu : aluDiv (firstOperand f s) (secondOperand f s) = (r, c)) :
      ∃ t, exec (.div f) s = .next t ∧ AluEffect f s t r c :=
    exec_alu_effect (i := .div f) nofun nofun nofun h halu
  refine ⟨fun hzero => ?zero, fun hmin hneg => ?overflow, fun hne hfits => ?fits⟩
  case zero => exact effect (by rw [hzero, aluDiv_zero])
  case overflow => exact effect (by rw [hmin, hneg, aluDiv_min_neg_one])
  case fits =>
    obtain ⟨q, hq, hfloor⟩ := aluDiv_of_fits hne hfits
    obtain ⟨t, hexec, heffect⟩ := effect hq
    refine ⟨t, q, hexec, heffect, fun hpos => ?_, fun hneg => ?_⟩
    · rw [hfloor]
      exact fdiv_bounds_of_pos _ hpos
    · rw [hfloor]
      exact fdiv_bounds_of_neg _ hneg

end Sys2Proof.Machine
end

section
/-! AND, OR, XOR, SHL, SHR and ASR (spec/42_alu_logic_shift.md): what the six instructions share, and the six
results. -/

namespace Sys2Proof.Machine

/-! ## What an executed instruction of the extension leaves -/

/-- R112, R120: no opcode of the extension has an overflow case. -/
theorem not_overflowCase_of_isExt {op : Opcode} (hext : op.isExt = true) (a b : Word) : ¬OverflowCase op a b := by
  rintro (⟨rfl, -⟩ | ⟨rfl, -⟩ | ⟨rfl, -⟩ | ⟨rfl, -⟩) <;> exact Bool.false_ne_true hext

/-- R120: the flags of an extension opcode are the sign or zero flag of its result. -/
theorem aluOp_eq_of_isExt {op : Opcode} (hext : op.isExt = true) (a b : Word) :
    aluOp op a b = ((aluOp op a b).1, szp (aluOp op a b).1) :=
  have ⟨_, hflags⟩ := flagsFollowTheResult
  Prod.ext rfl ((hflags op a b).1 (not_overflowCase_of_isExt hext a b))

/-- R100, R120: an executed extension instruction writes the ALU's word with its sign or zero flag; `P` is what is known
of that word. -/
theorem exec_of_isExt {i : Instr} {s : State} {P : Word → Prop} (hext : i.op.isExt = true) (h : Executed i.fields s)
    (hP : P (aluOp i.op (firstOperand i.fields s) (secondOperand i.fields s)).1) :
    ∃ t r, exec i s = .next t ∧ AluEffect i.fields s t r (szp r) ∧ P r := by
  have hne {op : Opcode} (hbase : op.isExt = false) : i.op ≠ op := fun heq =>
    Bool.false_ne_true (by rw [← hbase, ← heq, hext])
  obtain ⟨t, hexec, heffect⟩ :=
    exec_alu_effect (hne rfl) (hne rfl) (hne rfl) h (aluOp_eq_of_isExt hext _ _)
  exact ⟨t, _, hexec, heffect, hP⟩

/-! ## The shifts -/

/-- R120: the shift amount is the slice 4:0 of operand 2. -/
theorem shiftAmount_eq_extractLsb' (b : Word) : shiftAmount b = (b.extractLsb' 0 5).toNat := by
  rw [shiftAmount, BitVec.extractLsb'_toNat, Nat.shiftRight_zero]

/-- R11: the word of a natural number is its remainder. -/
theorem wrap_natCast_toNat (n : Nat) : (wrap (n : Int)).toNat = n % 2 ^ 32 := by
  rw [wrap, BitVec.ofInt_natCast, BitVec.toNat_ofNat]

/-- R124: SHL is the product by the power of two, truncated. -/
theorem aluShl_toNat (a b : Word) : (aluShl a b).1.toNat = a.toNat * 2 ^ (b.extractLsb' 0 5).toNat % 2 ^ 32 := by
  rw [← shiftAmount_eq_extractLsb', ← wrap_natCast_toNat]
  push_cast
  rfl

/-- R125: SHR is the unsigned quotient by the power of two, which always fits. -/
theorem aluShr_toNat (a b : Word) : (aluShr a b).1.toNat = a.toNat / 2 ^ (b.extractLsb' 0 5).toNat := by
  have hfits : a.toNat / 2 ^ shiftAmount b < 2 ^ 32 := lt_of_le_of_lt (Nat.div_le_self _ _) a.isLt
  rw [← shiftAmount_eq_extractLsb']
  exact (BitVec.toNat_ofNat _ _).trans (Nat.mod_eq_of_lt hfits)

/-- R11: floor division by a positive divisor keeps a word's signed reading in the range. -/
theorem outOfRange_fdiv_of_pos (a : Word) {d : Int} (hd : 0 < d) : outOfRange (Int.fdiv a.toInt d) = false := by
  obtain ⟨hlo, hhi⟩ := toInt_bounds a
  obtain ⟨hfloor, hceil⟩ := fdiv_bounds_of_pos a.toInt hd
  have hge : -2 ^ 31 ≤ Int.fdiv a.toInt d := by nlinarith
  have hle : Int.fdiv a.toInt d ≤ 2 ^ 31 - 1 := by nlinarith
  rw [← Bool.not_eq_true, outOfRange_iff]
  omega

/-- R126: ASR is the signed floor quotient by the power of two. -/
theorem aluAsr_toInt (a b : Word) :
    (aluAsr a b).1.toInt = Int.fdiv a.toInt (2 ^ (b.extractLsb' 0 5).toNat) := by
  rw [← shiftAmount_eq_extractLsb']
  exact wrap_toInt (outOfRange_fdiv_of_pos a (by positivity))

/-- R126: the two inequalities that fix that quotient, since the divisor is positive. -/
theorem aluAsr_floor (a b : Word) :
    (aluAsr a b).1.toInt * 2 ^ (b.extractLsb' 0 5).toNat ≤ a.toInt ∧
      a.toInt < ((aluAsr a b).1.toInt + 1) * 2 ^ (b.extractLsb' 0 5).toNat := by
  rw [aluAsr_toInt]
  exact fdiv_bounds_of_pos a.toInt (by positivity)

/-! ## The obligations -/

/-- Settles O11: bit by bit, the ALU's word for AND. -/
theorem andWritesTheBitwiseAnd : Obligations.AndWritesTheBitwiseAnd := fun f =>
  ⟨encode_make .and f (by decide), fun _ h => exec_of_isExt (i := .and f) rfl h fun _ => BitVec.getLsbD_and⟩

/-- Settles O12: bit by bit, the ALU's word for OR. -/
theorem orWritesTheBitwiseOr : Obligations.OrWritesTheBitwiseOr := fun f =>
  ⟨encode_make .or f (by decide), fun _ h => exec_of_isExt (i := .or f) rfl h fun _ => BitVec.getLsbD_or⟩

/-- Settles O13: bit by bit, the ALU's word for XOR. -/
theorem xorWritesTheBitwiseXor : Obligations.XorWritesTheBitwiseXor := fun f =>
  ⟨encode_make .xor f (by decide), fun _ h => exec_of_isExt (i := .xor f) rfl h fun _ => BitVec.getLsbD_xor⟩

/-- Settles O14: the ALU's word for SHL is the truncated product. -/
theorem shlShiftsLeft : Obligations.ShlShiftsLeft := fun f =>
  ⟨encode_make .shl f (by decide), fun _ h => exec_of_isExt (i := .shl f) rfl h (aluShl_toNat _ _)⟩

/-- Settles O15: the ALU's word for SHR is the unsigned quotient. -/
theorem shrShiftsRightWithZeros : Obligations.ShrShiftsRightWithZeros := fun f =>
  ⟨encode_make .shr f (by decide), fun _ h => exec_of_isExt (i := .shr f) rfl h (aluShr_toNat _ _)⟩

/-- Settles O16: the ALU's word for ASR is the signed quotient, rounded down. -/
theorem asrShiftsRightWithTheSign : Obligations.AsrShiftsRightWithTheSign := fun f =>
  ⟨encode_make .asr f (by decide), fun _ h => exec_of_isExt (i := .asr f) rfl h (aluAsr_floor _ _)⟩

end Sys2Proof.Machine
end

section
/-! LOAD and STORE (spec/43_load_store.md): where the access goes, what each does there, and what it leaves alone. -/

namespace Sys2Proof.Machine

/-! ## The address, and the state the access is made from -/

/-- R130: the model's effective address, grouped by operands, is the sum of the statements. -/
theorem effectiveAddr_eq (f : Fields) (s : State) : effectiveAddr f s = addressOfAccess f s :=
  (BitVec.add_assoc _ _ _).symm

/-- R98, R99: the advance and the flags are all that happens before an access, and all that a failed one leaves. -/
theorem retire_frame (s : State) (c : FlagMask) :
    OnlyPcAdvances s (s.retire c) ∧ (s.retire c).cc = c ∧ SameMemory s (s.retire c) ∧ SameDevice s (s.retire c) ∧
      SameControl s (s.retire c) :=
  ⟨s.readReg_advance, s.retire_cc c, fun _ => rfl,
    ⟨s.retire_deviceLog c, s.retire_deviceIn c, s.retire_draws c⟩,
    ⟨s.retire_runState c, s.retire_cfg c, s.retire_events c⟩⟩

section

variable {f : Fields} {s t : State} {v : Word}

/-! ## LOAD, by where its address lies -/

/-- R131: a LOAD whose read answers a word writes that word to the target. -/
theorem exec_load_of_memRead (h : Executed f s)
    (hread : (s.retire (szp (addressOfAccess f s))).memRead (addressOfAccess f s) = some (v, t)) :
    exec (.load f) s = .next (t.writeReg f.target v) := by
  refine (execLoad_executed f s ((executes_iff f s).mpr h)).trans ?_
  rw [effectiveAddr_eq, hread]

/-- R131: a LOAD from a plain address. -/
theorem exec_load_plain (h : Executed f s) (hplain : IsPlain s.cfg (addressOfAccess f s)) :
    exec (.load f) s = .next ((s.retire (szp (addressOfAccess f s))).writeReg f.target
      (s.mem.read (addressOfAccess f s).toNat)) :=
  exec_load_of_memRead h (State.memRead_plain _ _ ((plainAddr_iff_isPlain _ _).mpr hplain))

/-- R131: a LOAD from the I/O window. -/
theorem exec_load_window (h : Executed f s) (hwindow : IsWindow s.cfg (addressOfAccess f s)) :
    exec (.load f) s = .next (((s.retire (szp (addressOfAccess f s))).deviceRead (addressOfAccess f s)).2.writeReg
      f.target s.deviceAnswer) :=
  have ⟨hvalid, hinside⟩ := (validAddr_inWindow_iff_isWindow _ _).mpr hwindow
  exec_load_of_memRead h (State.memRead_window _ _ hvalid hinside)

/-- R131, R153: a LOAD from outside memory. -/
theorem exec_load_outside (h : Executed f s) (hout : s.cfg.memWords ≤ (addressOfAccess f s).toNat) :
    exec (.load f) s =
      .fault (.addressFault (addressOfAccess f s) .load (s.retire (szp (addressOfAccess f s)))) := by
  have hread : (s.retire (szp (addressOfAccess f s))).memRead (addressOfAccess f s) = none :=
    (State.memRead_eq_none _ _).mpr ((validAddr_eq_false_iff _ _).mpr hout)
  refine (execLoad_executed f s ((executes_iff f s).mpr h)).trans ?_
  rw [effectiveAddr_eq, hread, raise]

/-! ## STORE, by where its address lies -/

/-- R132: a STORE whose write succeeds ends in the state the write answers. -/
theorem exec_store_of_memWrite (h : Executed f s)
    (hwrite : (s.retire (szp (addressOfAccess f s))).memWrite (addressOfAccess f s) (s.advance.readReg f.target) =
      some t) :
    exec (.store f) s = .next t := by
  refine (execStore_executed f s ((executes_iff f s).mpr h)).trans ?_
  rw [effectiveAddr_eq, hwrite]

/-- R132: a STORE to a plain address. -/
theorem exec_store_plain (h : Executed f s) (hplain : IsPlain s.cfg (addressOfAccess f s)) :
    exec (.store f) s = .next { s.retire (szp (addressOfAccess f s)) with
      mem := s.mem.write (addressOfAccess f s).toNat (s.advance.readReg f.target) } :=
  exec_store_of_memWrite h (State.memWrite_plain _ _ _ ((plainAddr_iff_isPlain _ _).mpr hplain))

/-- R132: a STORE to the I/O window. -/
theorem exec_store_window (h : Executed f s) (hwindow : IsWindow s.cfg (addressOfAccess f s)) :
    exec (.store f) s = .next ((s.retire (szp (addressOfAccess f s))).deviceWrite (addressOfAccess f s)
      (s.advance.readReg f.target)) :=
  have ⟨hvalid, hinside⟩ := (validAddr_inWindow_iff_isWindow _ _).mpr hwindow
  exec_store_of_memWrite h (State.memWrite_window _ _ _ hvalid hinside)

/-- R132, R153: a STORE to outside memory. -/
theorem exec_store_outside (h : Executed f s) (hout : s.cfg.memWords ≤ (addressOfAccess f s).toNat) :
    exec (.store f) s =
      .fault (.addressFault (addressOfAccess f s) .store (s.retire (szp (addressOfAccess f s)))) := by
  have hwrite : (s.retire (szp (addressOfAccess f s))).memWrite (addressOfAccess f s) (s.advance.readReg f.target) =
      none := (State.memWrite_eq_none _ _ _).mpr ((validAddr_eq_false_iff _ _).mpr hout)
  refine (execStore_executed f s ((executes_iff f s).mpr h)).trans ?_
  rw [effectiveAddr_eq, hwrite, raise]

end

/-! ## The obligations -/

/-- Settles O17. What a LOAD leaves is what an ALU instruction leaves that writes the same word, but for the device,
which a read in the window reaches. -/
theorem loadReadsTheEffectiveAddress : Obligations.LoadReadsTheEffectiveAddress := by
  refine fun f => ⟨encode_make .load f (by decide), skippedInstructionOnlyAdvances (.load f), fun s h => ?_⟩
  refine ⟨fun hplain => ?plain, fun hwindow => ?window, fun hout => ?outside⟩
  case plain =>
    obtain ⟨hregs, hcc, hmem, hdevice, hcontrol⟩ := aluEffect_retire_writeReg f s
      (s.mem.read (addressOfAccess f s).toNat) (szp (addressOfAccess f s))
    exact ⟨_, exec_load_plain h hplain, hregs, hcc, hmem, hdevice, hcontrol⟩
  case window =>
    obtain ⟨hregs, hcc, hmem, -, hcontrol⟩ := aluEffect_retire_writeReg f s s.deviceAnswer (szp (addressOfAccess f s))
    exact ⟨_, _, exec_load_window h hwindow, hregs, State.deviceRead_deviceLog _ _, hcc, hmem, hcontrol⟩
  case outside => exact ⟨_, exec_load_outside h hout, retire_frame s _⟩

/-- Settles O18. The state before the write has the frame already; the write adds the one cell or the one device
access. -/
theorem storeWritesTheEffectiveAddress : Obligations.StoreWritesTheEffectiveAddress := by
  refine fun f => ⟨encode_make .store f (by decide), skippedInstructionOnlyAdvances (.store f), fun s v h hv => ?_⟩
  rw [← State.readReg_advance] at hv
  subst hv
  obtain ⟨hregs, hcc, hmem, hdevice, hcontrol⟩ := retire_frame s (szp (addressOfAccess f s))
  refine ⟨fun hplain => ?plain, fun hwindow => ?window, fun hout => ?outside⟩
  case plain =>
    exact ⟨_, exec_store_plain h hplain, hregs, hcc, Memory.read_write_self _ _ _,
      fun a ha => Memory.read_write_other _ _ a _ ha, hdevice, hcontrol⟩
  case window =>
    obtain ⟨-, hin, hdraws⟩ := hdevice
    exact ⟨_, exec_store_window h hwindow, hregs, hcc, State.deviceWrite_deviceLog _ _ _, hin, hdraws, hmem, hcontrol⟩
  case outside => exact ⟨_, exec_store_outside h hout, hregs, hcc, hmem, hdevice, hcontrol⟩

end Sys2Proof.Machine
end

section
/-! HALT and the relative jump (spec/44_control.md R140, R142): the stop, and what an ADD to register 15 leaves. -/

namespace Sys2Proof.Machine

/-! ## HALT -/

/-- Settles O19. The state before the stop has the frame already; the stop changes the run state alone, and a halted
state steps to itself. -/
theorem haltStopsTheMachine : Obligations.HaltStopsTheMachine := by
  refine fun f => ⟨encode_make .halt f (by decide), skippedInstructionOnlyAdvances (.halt f), fun s h => ?_⟩
  have hexec : exec (.halt f) s = .next ((s.retire flagZ).setRun .halted) :=
    execHalt_executed f s ((executes_iff f s).mpr h)
  obtain ⟨hregs, hcc, hmem, hdevice, -, hcfg, hevents⟩ := retire_frame s flagZ
  have hrun := (s.retire flagZ).setRun_runState .halted
  exact ⟨_, hexec, hregs, hcc, hrun, hcfg, hevents, hmem, hdevice, step_halted _ hrun⟩

/-! ## Jumps -/

/-- R102, R141: a write of register 15 overrides the advance, so the program counter is the one register to change. -/
theorem RegsAfterWrite.jump {s t : State} {v : Word} (h : RegsAfterWrite s t 15#4 v) :
    t.readReg 15#4 = v ∧ ∀ r, r ≠ 15#4 → t.readReg r = s.readReg r := by
  refine ⟨h 15#4, fun r hr => ?_⟩
  rw [h r, if_neg hr, if_neg hr]
  split
  case isTrue hzero => rw [hzero, State.readReg_zero]
  case isFalse => rfl

/-- R22, R112: a sum with register 0 is its second operand, which fits, so V is not set. -/
theorem aluAdd_zero_left (b : Word) : aluAdd 0#32 b = (b, szp b) := by
  have hfits : outOfRange b.toInt = false :=
    Bool.eq_false_iff.mpr fun hout => ((outOfRange_iff _).mp hout).elim
      (toInt_bounds b).1.not_gt (toInt_bounds b).2.not_gt
  rw [aluAdd, BitVec.toInt_zero, zero_add, narrow_of_inRange hfits, wrap, BitVec.ofInt_toInt]

/-- R11, R142: a word moved by an offset is the truncated sum of its unsigned reading and the offset. -/
theorem add_ofInt_eq_ofInt_toNat_add (a : Word) (k : Int) :
    a + BitVec.ofInt 32 k = BitVec.ofInt 32 (a.toNat + k) := by
  rw [BitVec.ofInt_add, BitVec.ofInt_natCast, BitVec.ofNat_toNat, BitVec.setWidth_eq]

/-- Settles O49: the sum that the ADD writes to register 15 is its second operand, the landing address. -/
theorem relativeJumpLands : Obligations.RelativeJumpLands := by
  intro c k s h
  obtain ⟨t, hexec, heffect⟩ := exec_alu_effect (i := .add ⟨c, 15#4, 0#4, 15#4, k⟩) nofun nofun nofun h
    (aluAdd_zero_left (s.readReg 15#4 + BitVec.ofInt 32 k))
  obtain ⟨hlands, hothers⟩ := heffect.regs.jump
  refine ⟨t, hexec, ?_, hothers, ?_⟩
  · rw [hlands, add_ofInt_eq_ofInt_toNat_add]
  · rw [hlands, heffect.cc]

end Sys2Proof.Machine
end

section
/-! Decode errors of a step (spec/60_exceptions.md R151): when a step ends in one, and what the fetch before it leaves. -/

namespace Sys2Proof.Machine

/-! ## The fetch -/

/-- R91: a fetch leaves registers, flags, memory, run state, parameters and events alone. -/
theorem State.fetch_frame {s s' : State} {w : Word} (h : s.fetch = some (w, s')) :
    (∀ r, s'.readReg r = s.readReg r) ∧ s'.cc = s.cc ∧ SameMemory s s' ∧ SameControl s s' := by
  obtain ⟨hregs, hcc, hrun, hmem, hcfg, hevents⟩ := State.memRead_frame h
  exact ⟨State.readReg_congr hregs, hcc, fun a => by rw [hmem], hrun, hcfg, hevents⟩

/-- R91: a fetch from a plain address changes nothing at all. -/
theorem State.fetch_plain_state {s s' : State} {w : Word} (h : s.fetch = some (w, s'))
    (hplain : IsPlain s.cfg (s.readReg 15#4)) : s' = s := by
  have hread : s.fetch = some (s.mem.read s.pc.toNat, s) :=
    State.memRead_plain s s.pc ((plainAddr_iff_isPlain _ _).mpr hplain)
  rw [h] at hread
  cases hread
  rfl

/-! ## The faults of an instruction -/

/-- R155: whatever fault an instruction answers, it is an executed LOAD's or STORE's address fault. -/
theorem exec_fault_cases {i : Instr} {s : State} {e : Fault} (h : exec i s = .fault e) :
    Executed i.fields s ∧ s.cfg.memWords ≤ (addressOfAccess i.fields s).toNat ∧
      ((i.op = .load ∧ e = .addressFault (addressOfAccess i.fields s) .load
          (s.retire (szp (addressOfAccess i.fields s)))) ∨
        (i.op = .store ∧ e = .addressFault (addressOfAccess i.fields s) .store
          (s.retire (szp (addressOfAccess i.fields s))))) := by
  by_cases hexecuted : Executed i.fields s
  case neg =>
    obtain ⟨t, hnext, -⟩ := skippedInstructionOnlyAdvances i s hexecuted
    cases h.symm.trans hnext
  case pos =>
    refine ⟨hexecuted, ?_⟩
    cases i with
    | load f =>
      cases hread : (s.retire (szp (addressOfAccess f s))).memRead (addressOfAccess f s) with
      | some answer => cases h.symm.trans (exec_load_of_memRead hexecuted hread)
      | none =>
        have hout := (validAddr_eq_false_iff _ _).mp ((State.memRead_eq_none _ _).mp hread)
        cases h.symm.trans (exec_load_outside hexecuted hout)
        exact ⟨hout, .inl ⟨rfl, rfl⟩⟩
    | store f =>
      cases hwrite : (s.retire (szp (addressOfAccess f s))).memWrite (addressOfAccess f s)
          (s.advance.readReg f.target) with
      | some t => cases h.symm.trans (exec_store_of_memWrite hexecuted hwrite)
      | none =>
        have hout := (validAddr_eq_false_iff _ _).mp ((State.memWrite_eq_none _ _ _).mp hwrite)
        cases h.symm.trans (exec_store_outside hexecuted hout)
        exact ⟨hout, .inr ⟨rfl, rfl⟩⟩
    | halt f => cases h.symm.trans (execHalt_executed f s ((executes_iff f s).mpr hexecuted))
    | add | sub | mul | div | and | or | xor | shl | shr | asr =>
      obtain ⟨t, hnext, -⟩ := exec_alu_effect (by nofun) (by nofun) (by nofun) hexecuted rfl
      cases h.symm.trans hnext

/-- R151: no instruction raises a decode error. -/
theorem exec_ne_decodeError (i : Instr) (s left : State) (w a : Word) (n : Nat) :
    exec i s ≠ .fault (.decodeError w n a left) := by
  intro h
  obtain ⟨-, -, ⟨-, he⟩ | ⟨-, he⟩⟩ := exec_fault_cases h <;> cases he

/-! ## The step -/

/-- R92, R151: a step ends in a decode error exactly where it fetches a word with an unassigned opcode. -/
theorem step_eq_decodeError_iff (s left : State) (w a : Word) (n : Nat) :
    step s = .fault (.decodeError w n a left) ↔
      s.runState = .running ∧ s.fetch = some (w, left) ∧ ¬AssignedNumber s.cfg.aluExt n ∧
        n = w.toNat / 2 ^ 26 ∧ a = s.readReg 15#4 := by
  cases hrun : s.runState with
  | halted => simp [step_halted s hrun]
  | running =>
    obtain ⟨hfetch, hstep⟩ | ⟨w', s', word, op, hfetch, hdecode, hstep⟩ | ⟨w', s', i, hfetch, hdecode, hstep⟩ :=
      step_running s hrun
    case inl => simp [hstep, hfetch]
    case inr.inl =>
      obtain ⟨-, -, -, -, hcfg, -⟩ := State.fetch_frame hfetch
      rw [decode_eq_error_iff, hcfg, opField_extract] at hdecode
      obtain ⟨hunassigned, ⟨⟩⟩ := hdecode
      rw [hstep, hfetch]
      constructor
      · rintro ⟨⟩
        exact ⟨rfl, rfl, hunassigned, rfl, rfl⟩
      · rintro ⟨-, ⟨⟩, -, rfl, rfl⟩
        rfl
    case inr.inr =>
      obtain ⟨-, -, -, -, hcfg, -⟩ := State.fetch_frame hfetch
      rw [hstep, hfetch]
      refine ⟨fun h => absurd h (exec_ne_decodeError _ _ _ _ _ _), ?_⟩
      rintro ⟨-, ⟨⟩, hunassigned, rfl, -⟩
      rw [← opField_extract, ← hcfg] at hunassigned
      cases hdecode.symm.trans ((decode_eq_error_iff _ _ _).mpr ⟨hunassigned, rfl⟩)

/-! ## The obligation -/

/-- Settles O28, from the one case in which a step ends in a decode error and the frame of the fetch before it. -/
theorem undecodableWordFaults : Obligations.UndecodableWordFaults := by
  refine ⟨fun s s' w hrun hfetch hunassigned => ?faults, fun s left w a n hstep => ?only⟩
  case faults =>
    obtain ⟨hregs, hcc, hmem, hcontrol⟩ := State.fetch_frame hfetch
    exact ⟨(step_eq_decodeError_iff ..).mpr ⟨hrun, hfetch, hunassigned, rfl, rfl⟩, hregs, hcc, hmem, hcontrol,
      State.fetch_plain_state hfetch⟩
  case only =>
    obtain ⟨-, hfetch, hunassigned, hn, ha⟩ := (step_eq_decodeError_iff ..).mp hstep
    exact ⟨ha, hn, hunassigned, hfetch⟩

end Sys2Proof.Machine
end

section
/-! What an instruction can end in (spec/40_execution_cycle.md R94 to R100, spec/60_exceptions.md R155): the next states
it can answer, one constructor a way to complete, and when it faults instead. -/

namespace Sys2Proof

theorem Instr.eq_load_of_op {i : Instr} (h : i.op = .load) : i = .load i.fields :=
  (Instr.eq_make_iff i .load i.fields).mpr ⟨h, rfl⟩

theorem Instr.eq_store_of_op {i : Instr} (h : i.op = .store) : i = .store i.fields :=
  (Instr.eq_make_iff i .store i.fields).mpr ⟨h, rfl⟩

theorem Instr.eq_halt_of_op {i : Instr} (h : i.op = .halt) : i = .halt i.fields :=
  (Instr.eq_make_iff i .halt i.fields).mpr ⟨h, rfl⟩

end Sys2Proof

namespace Sys2Proof.Machine

/-- R95, R100: in which of the five ways instruction `i` at state `s` ends in a next state. -/
inductive Completion (i : Instr) (s : State) : State → Prop
  | skipped (h : ¬Executed i.fields s) : Completion i s s.advance
  | alu (h : Executed i.fields s) (hload : i.op ≠ .load) (hstore : i.op ≠ .store) (hhalt : i.op ≠ .halt) {r : Word}
      {c : FlagMask} (halu : aluOp i.op (firstOperand i.fields s) (secondOperand i.fields s) = (r, c)) :
      Completion i s ((s.retire c).writeReg i.fields.target r)
  | halt (h : Executed i.fields s) (hop : i.op = .halt) : Completion i s ((s.retire flagZ).setRun .halted)
  | load (h : Executed i.fields s) (hop : i.op = .load) {v : Word} {u : State}
      (hread : (s.retire (szp (addressOfAccess i.fields s))).memRead (addressOfAccess i.fields s) = some (v, u)) :
      Completion i s (u.writeReg i.fields.target v)
  | store (h : Executed i.fields s) (hop : i.op = .store) {u : State}
      (hwrite : (s.retire (szp (addressOfAccess i.fields s))).memWrite (addressOfAccess i.fields s)
        (s.advance.readReg i.fields.target) = some u) :
      Completion i s u

/-- R153: the data access that ends in an address fault, an executed LOAD's or STORE's outside memory. -/
abbrev AccessOutside (i : Instr) (s : State) : Prop :=
  Executed i.fields s ∧ (i.op = .load ∨ i.op = .store) ∧ s.cfg.memWords ≤ (addressOfAccess i.fields s).toNat

section

variable {i : Instr} {s t : State}

/-- R131, R132: such an access faults. -/
theorem exec_accessOutside (h : AccessOutside i s) : ∃ e, exec i s = .fault e := by
  obtain ⟨hexecuted, hop | hop, hout⟩ := h
  · rw [Instr.eq_load_of_op hop]
    exact ⟨_, exec_load_outside hexecuted hout⟩
  · rw [Instr.eq_store_of_op hop]
    exact ⟨_, exec_store_outside hexecuted hout⟩

/-- R131: an executed LOAD completes or faults. -/
theorem exec_load_completes_or_outside (h : Executed i.fields s) (hop : i.op = .load) :
    (∃ t, exec i s = .next t ∧ Completion i s t) ∨ AccessOutside i s := by
  cases hread : (s.retire (szp (addressOfAccess i.fields s))).memRead (addressOfAccess i.fields s) with
  | none =>
    have hinvalid : validAddr s.cfg _ = false := (State.memRead_eq_none (s.retire _) _).mp hread
    exact .inr ⟨h, .inl hop, (validAddr_eq_false_iff _ _).mp hinvalid⟩
  | some answer =>
    refine .inl ⟨_, ?_, .load h hop hread⟩
    rw [Instr.eq_load_of_op hop]
    exact exec_load_of_memRead h hread

/-- R132: an executed STORE completes or faults. -/
theorem exec_store_completes_or_outside (h : Executed i.fields s) (hop : i.op = .store) :
    (∃ t, exec i s = .next t ∧ Completion i s t) ∨ AccessOutside i s := by
  cases hwrite : (s.retire (szp (addressOfAccess i.fields s))).memWrite (addressOfAccess i.fields s)
      (s.advance.readReg i.fields.target) with
  | none =>
    have hinvalid : validAddr s.cfg _ = false := (State.memWrite_eq_none (s.retire _) _ _).mp hwrite
    exact .inr ⟨h, .inr hop, (validAddr_eq_false_iff _ _).mp hinvalid⟩
  | some u =>
    refine .inl ⟨u, ?_, .store h hop hwrite⟩
    rw [Instr.eq_store_of_op hop]
    exact exec_store_of_memWrite h hwrite

/-- R94 to R100, R153: every instruction completes, or is a LOAD or STORE that faults. -/
theorem exec_completes_or_outside (i : Instr) (s : State) :
    (∃ t, exec i s = .next t ∧ Completion i s t) ∨ AccessOutside i s := by
  by_cases h : Executed i.fields s
  case neg => exact .inl ⟨_, exec_skipped i s ((executes_eq_false_iff _ _).mpr h), .skipped h⟩
  case pos =>
    have hexecutes : executes i.fields s = true := (executes_iff _ _).mpr h
    by_cases hload : i.op = .load
    · exact exec_load_completes_or_outside h hload
    by_cases hstore : i.op = .store
    · exact exec_store_completes_or_outside h hstore
    by_cases hhalt : i.op = .halt
    · refine .inl ⟨_, ?_, .halt h hhalt⟩
      rw [Instr.eq_halt_of_op hhalt]
      exact execHalt_executed _ s hexecutes
    · refine .inl ⟨_, ?_, .alu h hload hstore hhalt rfl⟩
      rw [exec_alu i s hload hstore hhalt]
      exact execAlu_executed _ _ _ hexecutes

/-- R95, R100: a next state is one of the five completions. -/
theorem completion_of_exec (h : exec i s = .next t) : Completion i s t := by
  obtain ⟨u, hu, hcompletion⟩ | hout := exec_completes_or_outside i s
  case inl =>
    cases h.symm.trans hu
    exact hcompletion
  case inr =>
    obtain ⟨e, he⟩ := exec_accessOutside hout
    cases h.symm.trans he

end

/-- Settles O30: the faults of an instruction are the accesses outside memory, in both directions. -/
theorem onlyBadDataAddressesFault : Obligations.OnlyBadDataAddressesFault := by
  refine fun i s => ⟨fun ⟨e, he⟩ => ?_, exec_accessOutside⟩
  obtain ⟨hexecuted, hout, hop⟩ := exec_fault_cases he
  exact ⟨hexecuted, hop.imp And.left And.left, hout⟩

end Sys2Proof.Machine
end

section
/-! The step (spec/40_execution_cycle.md R90 to R93, R104; spec/60_exceptions.md R153): the fetch by where the program
counter lies, what is handed to the decoded instruction, and a step by how it ends. -/

namespace Sys2Proof.Machine

/-! ## The fetch, by where the program counter lies -/

/-- R91: a fetch outside memory fails, and only there. -/
theorem State.fetch_eq_none_iff (s : State) : s.fetch = none ↔ s.cfg.memWords ≤ (s.readReg 15#4).toNat :=
  (State.memRead_eq_none s s.pc).trans (validAddr_eq_false_iff _ _)

/-- R91: a fetch from a plain address is the word there. -/
theorem State.fetch_plain {s : State} (h : IsPlain s.cfg (s.readReg 15#4)) :
    s.fetch = some (s.mem.read (s.readReg 15#4).toNat, s) :=
  State.memRead_plain s s.pc ((plainAddr_iff_isPlain _ _).mpr h)

/-- R91: a fetch from the I/O window is a device read. -/
theorem State.fetch_window {s : State} (h : IsWindow s.cfg (s.readReg 15#4)) :
    s.fetch = some (s.deviceRead (s.readReg 15#4)) :=
  have ⟨hvalid, hinside⟩ := (validAddr_inWindow_iff_isWindow _ _).mpr h
  State.memRead_window s s.pc hvalid hinside

/-! ## What is handed to the decoded instruction -/

/-- R90 to R92: the step at `s` fetches `w`, which leaves `s'`, and decodes it to `i`. -/
structure Dispatched (s s' : State) (w : Word) (i : Instr) : Prop where
  fetch : s.fetch = some (w, s')
  decode : decode s.cfg.aluExt w = .ok i

/-- R93: the state from which the decoded instruction runs: the one the fetch leaves, with the step's event out. -/
def handOver (s s' : State) (w : Word) (i : Instr) : State := s'.emit { addr := s.readReg 15#4, word := w, instr := i }

namespace Dispatched

variable {s s' : State} {w : Word} {i : Instr}

theorem readReg (h : Dispatched s s' w i) (r : RegIdx) : (handOver s s' w i).readReg r = s.readReg r :=
  have ⟨hregs, _⟩ := State.fetch_frame h.fetch
  hregs r

theorem cc (h : Dispatched s s' w i) : (handOver s s' w i).cc = s.cc :=
  have ⟨_, hcc, _⟩ := State.fetch_frame h.fetch
  hcc

theorem sameMemory (h : Dispatched s s' w i) : SameMemory s (handOver s s' w i) :=
  have ⟨_, _, hmem, _⟩ := State.fetch_frame h.fetch
  hmem

theorem runState (h : Dispatched s s' w i) : (handOver s s' w i).runState = s.runState :=
  have ⟨_, _, _, hrun, _⟩ := State.fetch_frame h.fetch
  hrun

theorem cfg (h : Dispatched s s' w i) : (handOver s s' w i).cfg = s.cfg :=
  have ⟨_, _, _, _, hcfg, _⟩ := State.fetch_frame h.fetch
  hcfg

theorem events (h : Dispatched s s' w i) :
    (handOver s s' w i).events = s.events ++ [{ addr := s.readReg 15#4, word := w, instr := i }] := by
  obtain ⟨-, -, -, -, -, hevents⟩ := State.fetch_frame h.fetch
  rw [handOver, State.emit_events, hevents]

/-- R94: whether an instruction runs is the same before the fetch and after it. -/
theorem executed_iff (h : Dispatched s s' w i) (f : Fields) : Executed f (handOver s s' w i) ↔ Executed f s := by
  rw [Executed, h.cc]

/-- R130: so is the address of its access. -/
theorem addressOfAccess_eq (h : Dispatched s s' w i) (f : Fields) :
    addressOfAccess f (handOver s s' w i) = addressOfAccess f s := by
  rw [addressOfAccess, h.readReg, h.readReg, addressOfAccess]

/-- R90: the step is then the instruction's own. -/
theorem step_eq (h : Dispatched s s' w i) (hrun : s.runState = .running) : step s = exec i (handOver s s' w i) := by
  obtain ⟨-, -, -, -, hcfg, -⟩ := State.fetch_frame h.fetch
  obtain ⟨hfetch, -⟩ | ⟨_, _, _, _, hfetch, hdecode, -⟩ | ⟨_, _, _, hfetch, hdecode, hstep⟩ := step_running s hrun
  · cases hfetch.symm.trans h.fetch
  · cases hfetch.symm.trans h.fetch
    rw [hcfg, h.decode] at hdecode
    cases hdecode
  · cases hfetch.symm.trans h.fetch
    rw [hcfg, h.decode] at hdecode
    cases hdecode
    exact hstep

end Dispatched

/-! ## A step by how it ends -/

/-- R90: a step while Running fails at the fetch, fails at the decode or runs an instruction. -/
theorem step_running_cases {s : State} (hrun : s.runState = .running) :
    (s.fetch = none ∧ step s = .fault (.addressFault (s.readReg 15#4) .fetch s)) ∨
      (∃ w s', s.fetch = some (w, s') ∧ ¬AssignedNumber s.cfg.aluExt (w.toNat / 2 ^ 26) ∧
        step s = .fault (.decodeError w (w.toNat / 2 ^ 26) (s.readReg 15#4) s')) ∨
      (∃ w s' i, Dispatched s s' w i ∧ step s = exec i (handOver s s' w i)) := by
  obtain ⟨hfetch, hstep⟩ | ⟨w, s', word, op, hfetch, hdecode, hstep⟩ | ⟨w, s', i, hfetch, hdecode, hstep⟩ :=
    step_running s hrun
  · exact .inl ⟨hfetch, hstep⟩
  · obtain ⟨-, -, -, -, hcfg, -⟩ := State.fetch_frame hfetch
    rw [decode_eq_error_iff, hcfg, opField_extract] at hdecode
    obtain ⟨hunassigned, ⟨⟩⟩ := hdecode
    exact .inr (.inl ⟨w, s', hfetch, hunassigned, hstep⟩)
  · obtain ⟨-, -, -, -, hcfg, -⟩ := State.fetch_frame hfetch
    exact .inr (.inr ⟨w, s', i, ⟨hfetch, hcfg ▸ hdecode⟩, hstep⟩)

/-- R90: a step while Running that answers a next state has completed the instruction it decoded. -/
theorem step_next_cases {s t : State} (hrun : s.runState = .running) (h : step s = .next t) :
    ∃ w s' i, Dispatched s s' w i ∧ Completion i (handOver s s' w i) t := by
  obtain ⟨-, hstep⟩ | ⟨_, _, -, -, hstep⟩ | ⟨w, s', i, hdispatched, hstep⟩ := step_running_cases hrun
  · cases h.symm.trans hstep
  · cases h.symm.trans hstep
  · exact ⟨w, s', i, hdispatched, completion_of_exec (hstep.symm.trans h)⟩

/-- R104: no step while Halted faults. -/
theorem running_of_step_fault {s : State} {e : Fault} (h : step s = .fault e) : s.runState = .running := by
  cases hrun : s.runState with
  | running => rfl
  | halted => cases h.symm.trans (step_halted s hrun)

/-- R151, R153: the three places of a step that a fault comes from. -/
theorem step_fault_cases {s : State} {e : Fault} (h : step s = .fault e) :
    (s.fetch = none ∧ e = .addressFault (s.readReg 15#4) .fetch s) ∨
      (∃ w s', s.fetch = some (w, s') ∧ ¬AssignedNumber s.cfg.aluExt (w.toNat / 2 ^ 26) ∧
        e = .decodeError w (w.toNat / 2 ^ 26) (s.readReg 15#4) s') ∨
      (∃ w s' i, Dispatched s s' w i ∧ exec i (handOver s s' w i) = .fault e) := by
  obtain ⟨hfetch, hstep⟩ | ⟨w, s', hfetch, hunassigned, hstep⟩ | ⟨w, s', i, hdispatched, hstep⟩ :=
    step_running_cases (running_of_step_fault h)
  · cases h.symm.trans hstep
    exact .inl ⟨hfetch, rfl⟩
  · cases h.symm.trans hstep
    exact .inr (.inl ⟨w, s', hfetch, hunassigned, rfl⟩)
  · exact .inr (.inr ⟨w, s', i, hdispatched, hstep.symm.trans h⟩)

/-! ## The obligations -/

/-- Settles O24: in plain memory the fetch gives the word there and leaves the state as it is. -/
theorem stepRunsTheDecodedInstruction : Obligations.StepRunsTheDecodedInstruction := by
  refine ⟨fun s s' w i hrun hfetch hdecode => ?any, fun s i hrun hplain hdecode => ?plain⟩
  case any =>
    obtain ⟨-, -, -, -, hcfg, -⟩ := State.fetch_frame hfetch
    exact Dispatched.step_eq ⟨hfetch, hcfg ▸ hdecode⟩ hrun
  case plain => exact Dispatched.step_eq ⟨State.fetch_plain hplain, hdecode⟩ hrun

/-- Settles O25. -/
theorem haltedStepChangesNothing : Obligations.HaltedStepChangesNothing := step_halted

/-- Settles O26: of the three ways a step while Running goes, only a failed fetch is left. -/
theorem fetchOutsideMemoryFaults : Obligations.FetchOutsideMemoryFaults := by
  intro s hrun hout
  have hnone : s.fetch = none := s.fetch_eq_none_iff.mpr hout
  obtain ⟨-, hstep⟩ | ⟨_, _, hfetch, -⟩ | ⟨_, _, _, hdispatched, -⟩ := step_running_cases hrun
  · exact hstep
  · cases hnone.symm.trans hfetch
  · cases hnone.symm.trans hdispatched.fetch

/-- Settles O27. -/
theorem fetchFromTheWindowAsksTheDevice : Obligations.FetchFromTheWindowAsksTheDevice := fun s hwindow =>
  have hfetch := State.fetch_window hwindow
  ⟨s.deviceAnswer, _, hfetch, s.deviceRead_deviceLog _, State.fetch_frame hfetch⟩

/-- Settles O31: the step faults itself or is an instruction, which completes or faults. -/
theorem noStepIsRefused : Obligations.NoStepIsRefused := by
  intro s
  cases hrun : s.runState with
  | halted => exact .inl ⟨s, step_halted s hrun⟩
  | running =>
    obtain ⟨-, hstep⟩ | ⟨_, _, -, -, hstep⟩ | ⟨w, s', i, -, hstep⟩ := step_running_cases hrun
    · exact .inr ⟨_, hstep⟩
    · exact .inr ⟨_, hstep⟩
    · rw [hstep]
      obtain ⟨t, hnext, -⟩ | hout := exec_completes_or_outside i (handOver s s' w i)
      · exact .inl ⟨t, hnext⟩
      · exact .inr (exec_accessOutside hout)

end Sys2Proof.Machine
end

section
/-! What a completed instruction leaves (spec/40_execution_cycle.md R95 to R100), one lemma a part of the state. -/

namespace Sys2Proof.Machine

/-- R22: a register write leaves every other register alone. -/
theorem State.readReg_writeReg_ne (s : State) {i j : RegIdx} (v : Word) (h : j ≠ i) :
    (s.writeReg i v).readReg j = s.readReg j := by
  rw [State.readReg_writeReg, if_neg h]
  split
  case isTrue hzero => rw [hzero, State.readReg_zero]
  case isFalse => rfl

/-- R111, R133: the flags the ALU gives LOAD and STORE are those of the address. -/
theorem aluOp_access_flags {i : Instr} (s : State) (hop : i.op = .load ∨ i.op = .store) :
    (aluOp i.op (firstOperand i.fields s) (secondOperand i.fields s)).2 = szp (addressOfAccess i.fields s) := by
  rw [← effectiveAddr_eq]
  obtain hop | hop := hop <;> rw [hop] <;> rfl

/-- R43, R50: what a data access of instruction `i` at state `s` adds to the device log. -/
def DataAccesses (i : Instr) (s : State) (accesses : List DeviceAccess) : Prop :=
  (Executed i.fields s → i.op = .load → IsWindow s.cfg (addressOfAccess i.fields s) →
    ∃ v, accesses = [.read (addressOfAccess i.fields s) v]) ∧
  (Executed i.fields s → i.op = .store → IsWindow s.cfg (addressOfAccess i.fields s) →
    ∃ v, accesses = [.write (addressOfAccess i.fields s) v]) ∧
  (¬(Executed i.fields s ∧ (i.op = .load ∨ i.op = .store) ∧ IsWindow s.cfg (addressOfAccess i.fields s)) →
    accesses = [])

section

variable {i : Instr} {s : State}

/-- R50: an instruction with no data access in the window does not reach the device. -/
theorem dataAccesses_nil
    (h : ¬(Executed i.fields s ∧ (i.op = .load ∨ i.op = .store) ∧ IsWindow s.cfg (addressOfAccess i.fields s))) :
    DataAccesses i s [] :=
  ⟨fun hexecuted hop hwindow => absurd ⟨hexecuted, .inl hop, hwindow⟩ h,
    fun hexecuted hop hwindow => absurd ⟨hexecuted, .inr hop, hwindow⟩ h, fun _ => rfl⟩

/-- R131: a LOAD from the window makes one read. -/
theorem dataAccesses_read (hexecuted : Executed i.fields s) (hop : i.op = .load)
    (hwindow : IsWindow s.cfg (addressOfAccess i.fields s)) (v : Word) :
    DataAccesses i s [.read (addressOfAccess i.fields s) v] :=
  ⟨fun _ _ _ => ⟨v, rfl⟩, fun _ hstore _ => (nomatch hop.symm.trans hstore),
    fun h => absurd ⟨hexecuted, .inl hop, hwindow⟩ h⟩

/-- R132: a STORE to the window makes one write. -/
theorem dataAccesses_write (hexecuted : Executed i.fields s) (hop : i.op = .store)
    (hwindow : IsWindow s.cfg (addressOfAccess i.fields s)) (v : Word) :
    DataAccesses i s [.write (addressOfAccess i.fields s) v] :=
  ⟨fun _ hload _ => (nomatch hop.symm.trans hload), fun _ _ _ => ⟨v, rfl⟩,
    fun h => absurd ⟨hexecuted, .inr hop, hwindow⟩ h⟩

end

namespace Completion

variable {i : Instr} {s t : State}

/-! ## By the constructors that its hypotheses leave -/

/-- R95: a skipped instruction has only advanced. -/
theorem eq_advance (h : Completion i s t) (hskip : ¬Executed i.fields s) : t = s.advance := by
  cases h with
  | skipped => rfl
  | alu hexecuted | halt hexecuted | load hexecuted | store hexecuted => exact absurd hexecuted hskip

/-- R140: an executed HALT has retired with Z and stopped. -/
theorem eq_halted (h : Completion i s t) (hexecuted : Executed i.fields s) (hop : i.op = .halt) :
    t = (s.retire flagZ).setRun .halted := by
  cases h with
  | skipped hskip => exact absurd hexecuted hskip
  | alu _ _ _ hhalt => exact absurd hop hhalt
  | halt => rfl
  | load _ hload => cases hop.symm.trans hload
  | store _ hstore => cases hop.symm.trans hstore

/-! ## The parts that no completion changes -/

/-- R5: the parameters. -/
theorem cfg (h : Completion i s t) : t.cfg = s.cfg := by
  cases h with
  | skipped | alu | halt => rfl
  | load _ _ hread =>
    obtain ⟨-, -, -, -, hcfg, -⟩ := State.memRead_frame hread
    exact hcfg
  | store _ _ hwrite =>
    obtain ⟨-, -, -, hcfg, -⟩ := State.memWrite_frame hwrite
    exact hcfg

/-- R93: the events, since the step's own went out before. -/
theorem events (h : Completion i s t) : t.events = s.events := by
  cases h with
  | skipped | alu | halt => rfl
  | load _ _ hread =>
    obtain ⟨-, -, -, -, -, hevents⟩ := State.memRead_frame hread
    exact hevents
  | store _ _ hwrite =>
    obtain ⟨-, -, -, -, -, -, hevents⟩ := State.memWrite_frame hwrite
    exact hevents

/-! ## The parts that some completion changes -/

/-- R100, R140: the run state, by an executed HALT alone. -/
theorem runState (h : Completion i s t) (hno : ¬(Executed i.fields s ∧ i.op = .halt)) : t.runState = s.runState := by
  cases h with
  | skipped | alu => rfl
  | halt hexecuted hop => exact absurd ⟨hexecuted, hop⟩ hno
  | load _ _ hread =>
    obtain ⟨-, -, hrun, -⟩ := State.memRead_frame hread
    exact hrun
  | store _ _ hwrite =>
    obtain ⟨-, -, hrun, -⟩ := State.memWrite_frame hwrite
    exact hrun

/-- R97, R98: the flags, which are the ALU's for every executed instruction. -/
theorem cc_of_executed (h : Completion i s t) (hexecuted : Executed i.fields s) :
    t.cc = (aluOp i.op (firstOperand i.fields s) (secondOperand i.fields s)).2 := by
  cases h with
  | skipped hskip => exact absurd hexecuted hskip
  | alu _ _ _ _ halu => rw [halu, State.writeReg_cc, State.retire_cc]
  | halt _ hop =>
    rw [hop]
    rfl
  | load _ hop hread =>
    obtain ⟨-, hcc, -⟩ := State.memRead_frame hread
    rw [aluOp_access_flags s (.inl hop), State.writeReg_cc, hcc, State.retire_cc]
  | store _ hop hwrite =>
    obtain ⟨-, hcc, -⟩ := State.memWrite_frame hwrite
    rw [aluOp_access_flags s (.inr hop), hcc, State.retire_cc]

/-- R99, R100: the registers, which advance but for the target of an instruction that writes it. -/
theorem readReg (h : Completion i s t) {r : RegIdx}
    (hr : ¬(Executed i.fields s ∧ i.op ≠ .store ∧ i.op ≠ .halt ∧ r = i.fields.target)) :
    t.readReg r = s.advance.readReg r := by
  cases h with
  | skipped | halt => rfl
  | alu hexecuted _ hstore hhalt =>
    exact State.readReg_writeReg_ne _ _ fun htarget => hr ⟨hexecuted, hstore, hhalt, htarget⟩
  | load hexecuted hop hread =>
    obtain ⟨hregs, -⟩ := State.memRead_frame hread
    rw [State.readReg_writeReg_ne _ _ fun htarget => hr ⟨hexecuted, by simp [hop], by simp [hop], htarget⟩,
      State.readReg_congr hregs, State.readReg_retire]
  | store _ _ hwrite =>
    obtain ⟨hregs, -⟩ := State.memWrite_frame hwrite
    rw [State.readReg_congr hregs, State.readReg_retire]

/-- R100, R132: memory, which an executed STORE changes at its address alone. -/
theorem mem_read (h : Completion i s t) {a : Nat}
    (ha : ¬(Executed i.fields s ∧ i.op = .store ∧ a = (addressOfAccess i.fields s).toNat)) :
    t.mem.read a = s.mem.read a := by
  cases h with
  | skipped | alu | halt => rfl
  | load _ _ hread =>
    obtain ⟨-, -, -, hmem, -⟩ := State.memRead_frame hread
    rw [State.writeReg_mem, hmem, State.retire_mem]
  | store hexecuted hop hwrite =>
    rw [State.memWrite_mem_read_other hwrite fun haddr => ha ⟨hexecuted, hop, haddr⟩, State.retire_mem]

/-- R43, R50: the device log, which grows by the data access in the window. -/
theorem deviceLog (h : Completion i s t) :
    ∃ accesses, t.deviceLog = s.deviceLog ++ accesses ∧ DataAccesses i s accesses := by
  cases h with
  | skipped hskip => exact ⟨[], (List.append_nil _).symm, dataAccesses_nil fun ⟨hexecuted, _⟩ => hskip hexecuted⟩
  | alu _ hload hstore _ =>
    exact ⟨[], (List.append_nil _).symm, dataAccesses_nil fun ⟨_, hop, _⟩ => hop.elim hload hstore⟩
  | halt _ hop => exact ⟨[], (List.append_nil _).symm, dataAccesses_nil (by simp [hop])⟩
  | load hexecuted hop hread =>
    obtain ⟨hvalid, ⟨houtside, -, rfl⟩ | ⟨hinside, rfl, rfl⟩⟩ := State.memRead_cases hread
    · refine ⟨[], (List.append_nil _).symm, dataAccesses_nil fun ⟨_, _, hwindow⟩ => ?_⟩
      exact Bool.false_ne_true (houtside.symm.trans ((inWindow_iff _ _).mpr hwindow.2))
    · have hwindow := (validAddr_inWindow_iff_isWindow _ _).mp ⟨hvalid, hinside⟩
      exact ⟨_, State.deviceRead_deviceLog _ _, dataAccesses_read hexecuted hop hwindow _⟩
  | store hexecuted hop hwrite =>
    obtain ⟨hvalid, ⟨houtside, rfl⟩ | ⟨hinside, rfl⟩⟩ := State.memWrite_cases hwrite
    · refine ⟨[], (List.append_nil _).symm, dataAccesses_nil fun ⟨_, _, hwindow⟩ => ?_⟩
      exact Bool.false_ne_true (houtside.symm.trans ((inWindow_iff _ _).mpr hwindow.2))
    · have hwindow := (validAddr_inWindow_iff_isWindow _ _).mp ⟨hvalid, hinside⟩
      exact ⟨_, State.deviceWrite_deviceLog _ _ _, dataAccesses_write hexecuted hop hwindow _⟩

end Completion

end Sys2Proof.Machine
end

section
/-! The invariant (spec/10_state.md sections 4 and 6; spec/00_scope.md R5): what each operation on the state does to a
good state, and so what every completion, step, fault and host operation does. -/

namespace Sys2Proof.Machine

/-! ## Flags -/

/-- R29, R111: the flags of an ALU result are legal. -/
theorem legalFlags_aluOp (op : Opcode) (a b : Word) : LegalFlags (aluOp op a b).2 :=
  have ⟨_, hflags⟩ := flagsFollowTheResult
  have ⟨_, _, hmem⟩ := hflags op a b
  List.mem_cons_of_mem _ hmem

/-- R111, R133: the sign or zero flag of an address is legal. -/
theorem legalFlags_szp (r : Word) : LegalFlags (szp r) :=
  List.mem_cons_of_mem _ (flagsOf_mem r false)

namespace GoodState

variable {s t : State}

/-! ## The parts of a state that the invariant looks at -/

/-- The invariant rests on the parameters, memory, slot 0 and the flags alone. -/
theorem of_frame (h : GoodState s) (hcfg : t.cfg = s.cfg) (hmem : t.mem = s.mem) (hslot : t.regs[0] = s.regs[0])
    (hflags : LegalFlags t.cc) : GoodState t where
  params := hcfg ▸ h.params
  canonical := hmem ▸ h.canonical
  plainCells := by
    rw [hcfg, hmem]
    exact h.plainCells
  slotZero := hslot.trans h.slotZero
  flags := hflags

/-! ## The operations on the state -/

theorem writeReg (h : GoodState s) (j : RegIdx) (v : Word) : GoodState (s.writeReg j v) :=
  h.of_frame rfl rfl (s.writeReg_slotZero j v) h.flags

theorem advance (h : GoodState s) : GoodState s.advance := h.of_frame rfl rfl s.advance_slotZero h.flags

theorem retire (h : GoodState s) {c : FlagMask} (hc : LegalFlags c) : GoodState (s.retire c) :=
  h.of_frame rfl rfl s.advance_slotZero hc

theorem setRun (h : GoodState s) (r : RunState) : GoodState (s.setRun r) := h.of_frame rfl rfl rfl h.flags

theorem emit (h : GoodState s) (e : Event) : GoodState (s.emit e) := h.of_frame rfl rfl rfl h.flags

theorem deviceWrite (h : GoodState s) (a v : Word) : GoodState (s.deviceWrite a v) := h.of_frame rfl rfl rfl h.flags

/-- R45: no read, of a cell or of the device, touches what the invariant looks at. -/
theorem memRead (h : GoodState s) {a v : Word} (hread : s.memRead a = some (v, t)) : GoodState t := by
  obtain ⟨hregs, hcc, -, hmem, hcfg, -⟩ := State.memRead_frame hread
  exact h.of_frame hcfg hmem (by rw [hregs]) (hcc ▸ h.flags)

/-- R33, R46: a cell written at a plain address keeps memory canonical and adds no entry elsewhere. -/
theorem writeCell (h : GoodState s) {a : Word} (ha : IsPlain s.cfg a) (v : Word) :
    GoodState { s with mem := s.mem.write a.toNat v } where
  params := h.params
  canonical := Memory.wf_write s.mem a.toNat v h.canonical
  plainCells c hc := by
    obtain rfl | hold := Memory.mem_write hc
    · exact ha
    · exact h.plainCells c hold
  slotZero := h.slotZero
  flags := h.flags

/-- R46: a write keeps the invariant, since only a plain address changes a cell. -/
theorem memWrite (h : GoodState s) {a v : Word} (hwrite : s.memWrite a v = some t) : GoodState t := by
  obtain ⟨hvalid, ⟨houtside, rfl⟩ | ⟨-, rfl⟩⟩ := State.memWrite_cases hwrite
  · exact h.writeCell ((plainAddr_iff_isPlain _ _).mp ((plainAddr_iff _ _).mpr ⟨hvalid, houtside⟩)) v
  · exact h.deviceWrite a v

/-! ## The step -/

/-- R95, R100: a completed instruction. -/
theorem completion {i : Instr} (h : GoodState s) (hcompletion : Completion i s t) : GoodState t := by
  cases hcompletion with
  | skipped => exact h.advance
  | alu _ _ _ _ halu =>
    have hflags := legalFlags_aluOp i.op (firstOperand i.fields s) (secondOperand i.fields s)
    rw [halu] at hflags
    exact (h.retire hflags).writeReg _ _
  | halt => exact (h.retire (c := flagZ) (by decide)).setRun _
  | load _ _ hread => exact ((h.retire (legalFlags_szp _)).memRead hread).writeReg _ _
  | store _ _ hwrite => exact (h.retire (legalFlags_szp _)).memWrite hwrite

/-- R91, R93: the state handed to the decoded instruction. -/
theorem handOver {s' : State} {w : Word} {i : Instr} (h : GoodState s) (hdispatched : Dispatched s s' w i) :
    GoodState (handOver s s' w i) :=
  (h.memRead hdispatched.fetch).emit _

/-- R159: the state that a fault of a step leaves. -/
theorem left {e : Fault} (h : GoodState s) (hstep : step s = .fault e) : GoodState e.left := by
  obtain ⟨-, rfl⟩ | ⟨w, s', hfetch, -, rfl⟩ | ⟨w, s', i, hdispatched, hexec⟩ := step_fault_cases hstep
  · exact h
  · exact h.memRead hfetch
  · obtain ⟨-, -, ⟨-, rfl⟩ | ⟨-, rfl⟩⟩ := exec_fault_cases hexec
    · exact (h.handOver hdispatched).retire (legalFlags_szp _)
    · exact (h.handOver hdispatched).retire (legalFlags_szp _)

/-! ## The host's operations -/

/-- R170, R171. -/
theorem hostReset (h : GoodState s) : GoodState (hostReset s) where
  params := h.params
  canonical := h.canonical
  plainCells := h.plainCells
  slotZero := rfl
  flags := List.mem_cons_self

/-- R173. -/
theorem startRun (h : GoodState s) (a : Word) : GoodState (startRun a s) := (h.writeReg pcIdx a).setRun .running

/-- R174. -/
theorem loadWord (h : GoodState s) (a v : Word) : GoodState (loadWord s a v) := by
  unfold Machine.loadWord
  split
  case isTrue hplain => exact h.writeCell ((plainAddr_iff_isPlain _ _).mp hplain) v
  case isFalse => exact h

/-- R174. -/
theorem loadProgram (h : GoodState s) (base : Word) (ws : List Word) : GoodState (loadProgram s base ws) := by
  induction ws generalizing s base with
  | nil => exact h
  | cons w ws ih => exact ih (h.loadWord base w) (base + 1#32)

end GoodState

/-! ## The obligations -/

/-- Settles O37. -/
theorem resetIsAGoodState : Obligations.ResetIsAGoodState where
  params := by decide
  canonical := State.reset_mem_wf
  plainCells := nofun
  slotZero := rfl
  flags := List.mem_cons_self

/-- Settles O36: the fetch, the event and each of the five completions keep the invariant. -/
theorem stepKeepsGoodState : Obligations.StepKeepsGoodState := by
  intro s t hgood hstep
  cases hrun : s.runState with
  | halted =>
    cases hstep.symm.trans (step_halted s hrun)
    exact ⟨hgood, rfl⟩
  | running =>
    obtain ⟨w, s', i, hdispatched, hcompletion⟩ := step_next_cases hrun hstep
    exact ⟨(hgood.handOver hdispatched).completion hcompletion, hcompletion.cfg.trans hdispatched.cfg⟩

/-- Settles O38. -/
theorem hostOperationsKeepGoodState : Obligations.HostOperationsKeepGoodState := fun _ hgood =>
  ⟨hgood.hostReset, hgood.startRun, hgood.loadWord, hgood.loadProgram, fun _ => hgood.left⟩

end Sys2Proof.Machine
end

section
/-! What every step guarantees (spec/40_execution_cycle.md R93 to R105, spec/60_exceptions.md R159, spec/20_memory.md
R43, R50): the parts of a completed instruction carried over to the step, and the state each fault leaves. -/

namespace Sys2Proof.Machine

/-- R43, R91: a fetch reaches the device in the window alone, by one read. -/
theorem State.fetch_deviceLog {s s' : State} {w : Word} (h : s.fetch = some (w, s')) :
    ∃ fetches, s'.deviceLog = s.deviceLog ++ fetches ∧
      (IsWindow s.cfg (s.readReg 15#4) → fetches = [.read (s.readReg 15#4) w]) ∧
      (¬IsWindow s.cfg (s.readReg 15#4) → fetches = []) := by
  obtain ⟨hvalid, ⟨houtside, -, rfl⟩ | ⟨hinside, rfl, rfl⟩⟩ := State.memRead_cases h
  · refine ⟨[], (List.append_nil _).symm, fun ⟨_, hwindow⟩ => ?_, fun _ => rfl⟩
    exact absurd (houtside.symm.trans ((inWindow_iff _ _).mpr hwindow)) Bool.false_ne_true
  · have hwindow := (validAddr_inWindow_iff_isWindow _ _).mp ⟨hvalid, hinside⟩
    exact ⟨[.read s.pc s.deviceAnswer], s.deviceRead_deviceLog s.pc, fun _ => rfl, absurd hwindow⟩

/-- R43, R130: what a data access adds to the device log does not depend on the fetch before it. -/
theorem Dispatched.dataAccesses_iff {s s' : State} {w : Word} {i : Instr} (h : Dispatched s s' w i)
    (accesses : List DeviceAccess) : DataAccesses i (handOver s s' w i) accesses ↔ DataAccesses i s accesses := by
  rw [DataAccesses, h.executed_iff, h.addressOfAccess_eq, h.cfg, DataAccesses]

/-! ## The obligations -/

/-- Settles O32, clause by clause from what a completed instruction leaves of the state handed to it. -/
theorem whatEveryStepGuarantees : Obligations.WhatEveryStepGuarantees := by
  intro s t hrun hstep
  obtain ⟨w, s', i, hd, hc⟩ := step_next_cases hrun hstep
  have hexecuted := hd.executed_iff i.fields
  refine ⟨w, s', i, hd.fetch, hd.decode, fun hno => ?pc, fun hne => ?flags, fun r hr hne => ?register,
    fun a hne => ?memory, ⟨s.readReg_zero, t.readReg_zero⟩, fun hne => ?stops, fun ⟨hexec, hop⟩ => ?halted⟩
  case pc =>
    have hadvance := hc.readReg (r := 15#4) fun ⟨hexec, hstore, hhalt, htarget⟩ =>
      hno ⟨hexecuted.mp hexec, hstore, hhalt, htarget.symm⟩
    rw [hadvance, State.readReg_advance, if_pos rfl, hd.readReg]
  case flags =>
    refine Classical.by_contradiction fun hskip => hne ?_
    rw [hc.eq_advance (mt hexecuted.mp hskip), State.advance_cc, hd.cc]
  case register =>
    refine Classical.by_contradiction fun hno => hne ?_
    rw [hc.readReg fun ⟨hexec, htarget⟩ => hno ⟨hexecuted.mp hexec, htarget⟩, State.readReg_advance, if_neg hr,
      hd.readReg]
  case memory =>
    by_contra hno
    have hread := hc.mem_read (a := a) fun ⟨hexec, hop, haddr⟩ =>
      hno ⟨hexecuted.mp hexec, hop, hd.addressOfAccess_eq i.fields ▸ haddr⟩
    exact hne (hread.trans (hd.sameMemory a))
  case stops =>
    by_contra hno
    have hkept := hc.runState fun ⟨hexec, hop⟩ => hno ⟨hexecuted.mp hexec, hop⟩
    exact hne (hkept.trans hd.runState)
  case halted =>
    rw [hc.eq_halted (hexecuted.mpr hexec) hop, State.setRun_runState, hrun]
    nofun

/-- Settles O33: of the three places a fault comes from, only the data access comes after the event and the advance. -/
theorem faultsLeaveThePreciseState : Obligations.FaultsLeaveThePreciseState := by
  intro s e hstep
  have hrun := running_of_step_fault hstep
  refine ⟨hrun, ?_⟩
  obtain ⟨hnone, he⟩ | ⟨w, s', hfetch, hunassigned, he⟩ | ⟨w, s', i, hd, hexec⟩ := step_fault_cases hstep
  case inl => exact .inl ⟨s.fetch_eq_none_iff.mp hnone, he⟩
  case inr.inl => exact .inr (.inl ⟨w, s', hfetch, he, hunassigned, State.fetch_frame hfetch⟩)
  case inr.inr =>
    obtain ⟨hexecuted, hout, haccess⟩ := exec_fault_cases hexec
    rw [hd.addressOfAccess_eq] at hout haccess
    obtain ⟨hregs, hcc, hmem, ⟨hlog, -⟩, hleftRun, -, hevents⟩ :=
      retire_frame (handOver s s' w i) (szp (addressOfAccess i.fields s))
    refine .inr (.inr ⟨w, s', i, _, hd.fetch, hd.decode, (hd.executed_iff _).mp hexecuted, hd.cfg ▸ hout, haccess,
      fun r => ?_, hcc, fun a => (hmem a).trans (hd.sameMemory a), hlog, hleftRun.trans (hd.runState.trans hrun),
      hevents.trans hd.events⟩)
    rw [hregs r, hd.readReg, hd.readReg]

/-- R93, R131, R132: a data access that fails has its step's event out already. -/
theorem events_of_data_fault {s left : State} {a : Word} {access : Access} (haccess : access ≠ .fetch)
    (h : step s = .fault (.addressFault a access left)) :
    ∃ w s' i, s.fetch = some (w, s') ∧ decode s.cfg.aluExt w = .ok i ∧
      left.events = s.events ++ [{ addr := s.readReg 15#4, word := w, instr := i }] := by
  obtain ⟨-, ⟨-, he⟩ | ⟨_, _, -, he, -⟩ | ⟨w, s', i, left', hfetch, hdecode, -, -, he, -, -, -, -, -, hevents⟩⟩ :=
    faultsLeaveThePreciseState s _ h
  · cases he
    exact absurd rfl haccess
  · cases he
  · have hleft : left' = left := by
      obtain ⟨-, he⟩ | ⟨-, he⟩ := he <;> cases he <;> rfl
    exact ⟨w, s', i, hfetch, hdecode, hleft ▸ hevents⟩

/-- Settles O34: a completed instruction adds no event to its step's one, and the faults leave what O33 says. -/
theorem oneEventPerDecodedStep : Obligations.OneEventPerDecodedStep := by
  refine ⟨fun s t hrun hstep => ?next, fun s t hhalted hstep => ?halted, fun s left w n a hstep => ?decode,
    fun s left a hstep => ?fetch, fun s left a hstep => ?access⟩
  case next =>
    obtain ⟨w, s', i, hd, hc⟩ := step_next_cases hrun hstep
    exact ⟨w, s', i, hd.fetch, hd.decode, hc.events.trans hd.events⟩
  case halted =>
    cases hstep.symm.trans (step_halted s hhalted)
    rfl
  case decode =>
    obtain ⟨-, hfetch, -⟩ := (step_eq_decodeError_iff ..).mp hstep
    obtain ⟨-, -, -, -, -, hevents⟩ := State.fetch_frame hfetch
    exact hevents
  case fetch =>
    obtain ⟨-, ⟨-, he⟩ | ⟨_, _, -, he, -⟩ | ⟨_, _, _, _, -, -, -, -, ⟨-, he⟩ | ⟨-, he⟩, -⟩⟩ :=
      faultsLeaveThePreciseState s _ hstep <;> cases he
    rfl
  case access =>
    obtain hstep | hstep := hstep
    · exact events_of_data_fault (access := .load) nofun hstep
    · exact events_of_data_fault (access := .store) nofun hstep

/-- Settles O35: the fetch's access and then the instruction's. -/
theorem deviceSeesEachAccessOnce : Obligations.DeviceSeesEachAccessOnce := by
  intro s t hrun hstep
  obtain ⟨w, s', i, hd, hc⟩ := step_next_cases hrun hstep
  obtain ⟨fetches, hfetchLog, hinWindow, houtside⟩ := State.fetch_deviceLog hd.fetch
  obtain ⟨accesses, hlog, haccesses⟩ := hc.deviceLog
  obtain ⟨hload, hstore, hnone⟩ := (hd.dataAccesses_iff accesses).mp haccesses
  refine ⟨w, s', i, fetches, accesses, hd.fetch, hd.decode, ?_, hinWindow, houtside, hload, hstore, hnone⟩
  rw [hlog, handOver, State.emit_deviceLog, hfetchLog]

/-- Settles O42: the one completion that stops is the executed HALT's, whose state is known. -/
theorem runEndsOnlyByHalt : Obligations.RunEndsOnlyByHalt := by
  intro s t hrun hstep hended
  obtain ⟨w, s', i, hd, hc⟩ := step_next_cases hrun hstep
  obtain ⟨hexecuted, hop⟩ : Executed i.fields (handOver s s' w i) ∧ i.op = .halt := by
    by_contra hno
    rw [EndedNormally, hc.runState hno, hd.runState, hrun] at hended
    cases hended
  have hdecode := hd.decode
  rw [Instr.eq_halt_of_op hop] at hdecode
  have hpc : t.readReg 15#4 = s.readReg 15#4 + 1#32 := by
    rw [hc.eq_halted hexecuted hop, State.readReg_setRun, State.readReg_retire, State.readReg_advance, if_pos rfl,
      hd.readReg]
  have hcc : t.cc = 2#4 := by
    rw [hc.eq_halted hexecuted hop, State.setRun_cc, State.retire_cc, flagZ]
  exact ⟨hpc, hcc, w, s', i.fields, hd.fetch, hdecode, (hd.executed_iff _).mp hexecuted⟩

end Sys2Proof.Machine
end

section
/-! The condition masks (spec/10_state.md section 4, spec/70_reset_and_hazards.md section 3): when a mask meets the
flags, and that an instruction whose mask does leaves the ALU's flags. -/

namespace Sys2Proof.Machine

/-- R94: two sets of flags are disjoint exactly if no flag is in both. -/
theorem flagMask_and_eq_zero_iff (a b : FlagMask) :
    a &&& b = 0#4 ↔ ∀ k, ¬(a.getLsbD k = true ∧ b.getLsbD k = true) := by
  constructor
  · intro h k hk
    have hbit : (a &&& b).getLsbD k = true := by rw [BitVec.getLsbD_and, Bool.and_eq_true]; exact hk
    rw [h, BitVec.getLsbD_zero] at hbit
    exact Bool.false_ne_true hbit
  · intro h
    refine BitVec.eq_of_getLsbD_eq fun k _ => ?_
    rw [BitVec.getLsbD_and, BitVec.getLsbD_zero, ← Bool.not_eq_true, Bool.and_eq_true]
    exact h k

/-- R29: legal flags are never all clear. -/
theorem LegalFlags.ne_zero {c : FlagMask} (h : LegalFlags c) : c ≠ 0#4 := by
  rintro rfl
  revert h
  decide

/-- R97, R98: an executed instruction leaves the ALU's flags, in its next state or in its fault. -/
theorem leavesAluFlags_of_executed {i : Instr} {s : State} (h : Executed i.fields s) : LeavesAluFlags i s := by
  obtain ⟨t, hnext, hc⟩ | hout := exec_completes_or_outside i s
  · exact ⟨t, .inl hnext, hc.cc_of_executed h⟩
  · obtain ⟨e, he⟩ := exec_accessOutside hout
    obtain ⟨-, -, hop⟩ := exec_fault_cases he
    have hflags := aluOp_access_flags s (hop.imp And.left And.left)
    obtain ⟨-, rfl⟩ | ⟨-, rfl⟩ := hop
    · exact ⟨_, .inr ⟨_, he, rfl⟩, hflags.symm⟩
    · exact ⟨_, .inr ⟨_, he, rfl⟩, hflags.symm⟩

/-- Settles O39: each mask clause is a fact about the two sets of flags. -/
theorem alwaysAndNeverMasks : Obligations.AlwaysAndNeverMasks := by
  intro s i hgood
  have hsome : s.cc ≠ 0#4 := hgood.flags.ne_zero
  have hruns (h : Executed i.fields s) : executes i.fields s = true ∧ LeavesAluFlags i s :=
    ⟨(executes_iff _ _).mpr h, leavesAluFlags_of_executed h⟩
  refine ⟨hsome, fun halways => hruns ?always, fun hnever => ?never, fun hall hmask => hruns ?all, ?disjoint⟩
  case always =>
    rw [Executed, halways]
    exact BitVec.and_allOnes.symm ▸ hsome
  case never =>
    have hskip : ¬Executed i.fields s := by rw [Executed, hnever, BitVec.and_zero]; exact not_not.mpr rfl
    exact ⟨(executes_eq_false_iff _ _).mpr hskip, skippedInstructionOnlyAdvances i s hskip⟩
  case all =>
    rw [Executed, hall]
    exact BitVec.allOnes_and.symm ▸ hmask
  case disjoint => rw [executes_eq_false_iff, not_not, flagMask_and_eq_zero_iff]

end Sys2Proof.Machine
end

section
/-! Memory, the device and the host (spec/20_memory.md R45, R50, R56; spec/70_reset_and_hazards.md R170 to R174): what a
read, a fetch and a host operation find. -/

namespace Sys2Proof.Machine

/-! ## The host's operations -/

/-- R173: a run starts with the program counter at its start address and no other register changed. -/
theorem State.readReg_startRun (a : Word) (s : State) (r : RegIdx) :
    (startRun a s).readReg r = if r = 15#4 then a else s.readReg r := by
  rw [startRun, State.readReg_setRun]
  split
  case isTrue h => rw [h, State.readReg_writeReg, pcIdx, if_neg (by decide), if_pos rfl]
  case isFalse h => exact State.readReg_writeReg_ne s a h

/-- R170: every register reads 0 where every slot holds 0. -/
theorem State.readReg_of_regs_zero {s : State} (h : s.regs = Vector.replicate 16 0#32) (r : RegIdx) :
    s.readReg r = 0#32 := by
  rw [State.readReg, h, Vector.getElem_replicate, ite_self]

/-- R91: a fetch from a plain address whose cell is known. -/
theorem State.fetch_of_mem_read {s : State} {v : Word} (h : IsPlain s.cfg (s.readReg 15#4))
    (hread : s.mem.read (s.readReg 15#4).toNat = v) : s.fetch = some (v, s) := by
  rw [State.fetch_plain h, hread]

/-- R173: a run started at a plain address fetches the word there. -/
theorem fetch_startRun {s : State} {a : Word} (h : IsPlain s.cfg a) :
    (startRun a s).fetch = some (s.mem.read a.toNat, startRun a s) := by
  have hpc : (startRun a s).readReg 15#4 = a := by rw [State.readReg_startRun, if_pos rfl]
  have hfetch := State.fetch_plain (s := startRun a s) (by rw [hpc]; exact h)
  rw [hpc] at hfetch
  exact hfetch

/-- R173: the loop goes on from the state that a step answers. -/
theorem runLoop_next {s t : State} (n : Nat) (hrun : s.runState = .running) (hstep : step s = .next t) :
    runLoop (n + 1) s = runLoop n t := by
  simp [runLoop, hrun, hstep]

/-- R173: the loop ends with the fault of a step. -/
theorem runLoop_fault {s : State} {e : Fault} (n : Nat) (hrun : s.runState = .running) (hstep : step s = .fault e) :
    runLoop (n + 1) s = .fault e := by
  simp [runLoop, hrun, hstep]

/-- R174: a word loaded at a plain address is put in its cell. -/
theorem loadWord_plain {s : State} {a : Word} (h : IsPlain s.cfg a) (v : Word) :
    loadWord s a v = { s with mem := s.mem.write a.toNat v } :=
  if_pos ((plainAddr_iff_isPlain _ _).mpr h)

/-- R47, R65: a whole table word is the word. -/
theorem tableWord_toNat (w : Word) : tableWord 32 w.toNat = w := by
  rw [tableWord, Nat.mod_eq_of_lt w.isLt, BitVec.ofNat_toNat, BitVec.setWidth_eq]

/-- The word is placed in front of the device's answers where the next fetch asks the device (assumption 10). -/
theorem placeNextWord_window {s : State} (h : IsWindow s.cfg (s.readReg 15#4)) (w : Word) :
    placeNextWord s w = { s.setRun .running with deviceIn := w :: s.deviceIn } := by
  have ⟨hvalid, hinside⟩ := (validAddr_inWindow_iff_isWindow _ _).mpr h
  exact if_pos (by rw [Bool.and_eq_true]; exact ⟨hvalid, hinside⟩)

/-- The word is placed in its cell where the next fetch reads plain memory (assumption 10). -/
theorem placeNextWord_plain {s : State} (h : IsPlain s.cfg (s.readReg 15#4)) (w : Word) :
    placeNextWord s w = { s.setRun .running with mem := s.mem.write (s.readReg 15#4).toNat w } := by
  have hno : ¬(validAddr s.cfg s.pc && inWindow s.cfg s.pc) = true := by
    rw [Bool.and_eq_true, validAddr_inWindow_iff_isWindow]
    exact fun ⟨_, hinside⟩ => h.2 hinside
  exact (if_neg hno).trans (loadWord_plain (s := s.setRun .running) h w)

/-! ## The obligations -/

/-- Settles O40. -/
theorem resetValues : Obligations.ResetValues :=
  ⟨⟨State.readReg_of_regs_zero rfl, rfl, rfl⟩,
    fun _ => ⟨State.readReg_of_regs_zero rfl, rfl, rfl, rfl, ⟨rfl, rfl, rfl⟩, rfl⟩⟩

/-- Settles O41: after its start the machine is Running, so the loop's first step is the machine's. -/
theorem runStartsAndThenSteps : Obligations.RunStartsAndThenSteps := by
  refine ⟨fun a s => ⟨s.readReg_startRun a, rfl, rfl, rfl, rfl, rfl, rfl⟩, fun n a s t hstep => ?next,
    fun n a s e hstep => ?fault, fun n s hended => ?ended⟩
  case next => exact runLoop_next n (State.setRun_runState _ _) hstep
  case fault => exact runLoop_fault n (State.setRun_runState _ _) hstep
  case ended =>
    cases n with
    | zero => rfl
    | succ n => simp [runLoop, hended]

/-- Settles O43. -/
theorem memReadBranches : Obligations.MemReadBranches := by
  intro s a
  refine ⟨fun hout => ?outside, fun hwindow => ?window, fun hplain => ?plain⟩
  case outside => exact (s.memRead_eq_none a).mpr ((validAddr_eq_false_iff _ _).mpr hout)
  case window =>
    obtain ⟨hvalid, hinside⟩ := (validAddr_inWindow_iff_isWindow _ _).mpr hwindow
    exact ⟨s.deviceAnswer, (s.deviceRead a).2, s.memRead_window a hvalid hinside, s.deviceRead_deviceLog a,
      s.readReg_deviceRead a, s.deviceRead_cc a, fun _ => rfl, rfl, rfl, rfl⟩
  case plain => exact s.memRead_plain a ((plainAddr_iff_isPlain _ _).mpr hplain)

/-- Settles O45: the cell holds the word, and both fetches read that cell. -/
theorem storeIsSeenByTheNextFetch : Obligations.StoreIsSeenByTheNextFetch := by
  intro f s t hexecuted hplain hexec
  obtain ⟨-, -, hstores⟩ := storeWritesTheEffectiveAddress f
  obtain ⟨hwrites, -⟩ := hstores s _ hexecuted rfl
  obtain ⟨t', hexec', hregs, -, hread, -, -, -, hcfg, -⟩ := hwrites hplain
  cases hexec.symm.trans hexec'
  have hplain' : IsPlain t.cfg (addressOfAccess f s) := hcfg ▸ hplain
  refine ⟨?_, fun hnext => ?_⟩
  · rw [fetch_startRun hplain', hread]
  · have hpc : t.readReg 15#4 = addressOfAccess f s := (hregs 15#4).trans hnext
    exact State.fetch_of_mem_read (hpc ▸ hplain') (hpc ▸ hread)

/-- Settles O46: the answer is the head of the list, or the free value where the list is empty. -/
theorem deviceAnswersComeFromTheRun : Obligations.DeviceAnswersComeFromTheRun := by
  intro f s hexecuted hwindow
  obtain ⟨hregs, -⟩ := aluEffect_retire_writeReg f s s.deviceAnswer (szp (addressOfAccess f s))
  have hload := exec_load_window hexecuted hwindow
  refine ⟨fun v rest hin => ?some, fun hin => ?none⟩
  case some =>
    have hanswer : s.deviceAnswer = v := by rw [State.deviceAnswer, hin, List.headD_cons]
    rw [hanswer] at hload hregs
    refine ⟨_, hload, hregs, ?_, ?_⟩
    · rw [State.writeReg_deviceIn, State.deviceRead_deviceIn, State.retire_deviceIn, hin, List.tail_cons]
    · rw [← hanswer]
      rfl
  case none =>
    refine ⟨_, s.deviceAnswer, hload, hregs, ?_, rfl, rfl⟩
    rw [State.writeReg_deviceIn, State.deviceRead_deviceIn, State.retire_deviceIn, hin, List.tail_nil]

/-- Settles O47. -/
theorem loadedWordIsFetched : Obligations.LoadedWordIsFetched := by
  intro s a v hplain
  rw [loadWord_plain hplain]
  refine ⟨?_, fun b hb => Memory.read_write_other s.mem a.toNat b v hb⟩
  rw [fetch_startRun (s := { s with mem := s.mem.write a.toNat v }) hplain, Memory.read_write_self]

/-- Settles O48, by where the program counter lies. -/
theorem placedWordIsFetchedNext : Obligations.PlacedWordIsFetchedNext := by
  intro s w hvalid
  rw [State.withFetchWord, tableWord_toNat]
  by_cases hwindow : s.cfg.mmioLo ≤ (s.readReg 15#4).toNat ∧ (s.readReg 15#4).toNat ≤ s.cfg.mmioHi
  case pos =>
    rw [placeNextWord_window ⟨hvalid, hwindow⟩]
    exact ⟨rfl, fun _ => rfl, rfl, _, State.fetch_window ⟨hvalid, hwindow⟩⟩
  case neg =>
    rw [placeNextWord_plain ⟨hvalid, hwindow⟩]
    have hread := Memory.read_write_self s.mem (s.readReg 15#4).toNat w
    exact ⟨rfl, fun _ => rfl, rfl, _, State.fetch_of_mem_read ⟨hvalid, hwindow⟩ hread⟩

end Sys2Proof.Machine
end

section
/-! The ALU block and single instructions (spec/41_alu_arithmetic.md, spec/42_alu_logic_shift.md;
spec/40_execution_cycle.md R101, R102): the block's error, the shifts as bit movements, the compare, and register 15
inside a step. -/

namespace Sys2Proof.Machine

/-! ## The shifts -/

/-- R120: the shift amount is operand 2 under the mask of its low five bits. -/
theorem extractLsb'_eq_and_mask (b : Word) : (b.extractLsb' 0 5).toNat = (b &&& 31#32).toNat := by
  have hmask : (31#32).toNat = 2 ^ 5 - 1 := rfl
  rw [← shiftAmount_eq_extractLsb', BitVec.toNat_and, hmask, Nat.and_two_pow_sub_one_eq_mod]
  rfl

/-! ## The compare -/

/-- R111: the flag of an integer that fits a word is that of its sign. -/
theorem szp_wrap {e : Int} (h : outOfRange e = false) :
    szp (wrap e) = if e < 0 then 1#4 else if e = 0 then 2#4 else 4#4 := by
  have hint : (wrap e).toInt = e := wrap_toInt h
  have hzero : wrap e = 0#32 ↔ e = 0 := by rw [← BitVec.toInt_inj, hint, BitVec.toInt_zero]
  have hmsb : (wrap e).msb = decide (e < 0) := by rw [BitVec.msb_eq_toInt, hint]
  rw [szp, hmsb]
  obtain hneg | rfl | hpos := lt_trichotomy e 0
  · rw [if_neg (mt hzero.mp hneg.ne), decide_eq_true hneg, if_pos rfl, if_pos hneg, flagM]
  · rw [if_pos (hzero.mpr rfl), if_neg (by decide), if_pos rfl, flagZ]
  · rw [if_neg (mt hzero.mp hpos.ne'), decide_eq_false hpos.not_gt, if_neg Bool.false_ne_true, if_neg hpos.not_gt,
      if_neg hpos.ne', flagP]

/-- R112: an exact result that fits sets no V. -/
theorem flagsOfExact_of_inRange {e : Int} (h : outOfRange e = false) : flagsOfExact e = szp (wrap e) :=
  congrArg Prod.snd ((narrow_eq e).symm.trans (narrow_of_inRange h))

/-- R22: a write of register 0 leaves the advance alone. -/
theorem RegsAfterWrite.onlyPcAdvances {s t : State} {v : Word} (h : RegsAfterWrite s t 0#4 v) : OnlyPcAdvances s t := by
  intro r
  rw [h r]
  by_cases hr : r = 0#4
  · rw [if_pos hr, hr, if_neg (by decide), State.readReg_zero]
  · rw [if_neg hr, if_neg hr]

/-! ## Operands -/

/-- R69, R96: an operand with no offset is its register. -/
theorem secondOperand_zero_offset (f : Fields) (s : State) (h : f.offset = 0) :
    secondOperand f s = s.readReg f.src2 := by
  rw [secondOperand, h]
  exact BitVec.add_zero _

/-- R22, R96: an operand on register 0 is its offset. -/
theorem secondOperand_zero_register (f : Fields) (s : State) (h : f.src2 = 0#4) :
    secondOperand f s = BitVec.ofInt 32 f.offset := by
  rw [secondOperand, h, State.readReg_zero, BitVec.zero_add]

/-- R11: the word of an exact sum of two words is their sum. -/
theorem ofInt_toInt_add_toInt (a b : Word) : BitVec.ofInt 32 (a.toInt + b.toInt) = a + b := by
  rw [BitVec.ofInt_add, BitVec.ofInt_toInt, BitVec.ofInt_toInt]

/-! ## The obligations -/

/-- Settles O1. -/
theorem specWordsDecode : Obligations.SpecWordsDecode := by
  unfold Obligations.SpecWordsDecode
  decide

/-- Settles O22: the block finds its opcode by the decoder's lookup. -/
theorem aluBlockRejectsUnknownOpcodes : Obligations.AluBlockRejectsUnknownOpcodes := by
  refine fun ext n a b => ⟨fun hunassigned => ?_, fun hassigned => ?_⟩
  · rw [aluExec, (Opcode.lookup_eq_none_iff ext n).mpr hunassigned]
  · obtain ⟨op, hop⟩ := Opcode.exists_lookup_of_assignedNumber hassigned
    exact ⟨op, ((Opcode.lookup_eq_some_iff ext n op).mp hop).1, by rw [aluExec, hop]⟩

/-- Settles O23: product and quotients by a power of two are shifts, read unsigned, and signed for ASR. -/
theorem shiftsAreBitShifts : Obligations.ShiftsAreBitShifts := by
  intro a b
  rw [← extractLsb'_eq_and_mask]
  refine ⟨BitVec.eq_of_toNat_eq ?shl, BitVec.eq_of_toNat_eq ?shr, BitVec.eq_of_toInt_eq ?asr⟩
  case shl => rw [BitVec.toNat_shiftLeft, Nat.shiftLeft_eq]; exact aluShl_toNat a b
  case shr => rw [BitVec.toNat_ushiftRight, Nat.shiftRight_eq_div_pow]; exact aluShr_toNat a b
  case asr =>
    rw [BitVec.toInt_sshiftRight, Int.shiftRight_eq_div_pow, ← Int.fdiv_eq_ediv_of_nonneg _ (by positivity)]
    exact_mod_cast aluAsr_toInt a b

/-- Settles O52: the flags are the sign of the exact difference, which fits. -/
theorem subComparesSigned : Obligations.SubComparesSigned := by
  intro c a b s hexecuted hlo hhi
  have hfits : outOfRange ((s.readReg a).toInt - (s.readReg b).toInt) = false := by
    rw [← Bool.not_eq_true, outOfRange_iff]
    omega
  obtain ⟨t, hexec, heffect⟩ := (subWritesTheDifference ⟨c, 0#4, a, b, 0⟩).2 s hexecuted
  refine ⟨t, hexec, heffect.regs.onlyPcAdvances, ?_⟩
  rw [heffect.cc, secondOperand_zero_offset _ _ rfl, firstOperand, flagsOfExact_of_inRange hfits, szp_wrap hfits]
  simp only [sub_neg, sub_eq_zero]

/-- Settles O51: ADD reads register 15 before the advance, STORE reads its data after it. -/
theorem registerFifteenInsideAStep : Obligations.RegisterFifteenInsideAStep := by
  refine ⟨fun c d k s hd0 hd15 hexecuted => ?source, fun c k s hexecuted hplain => ?data⟩
  case source =>
    obtain ⟨t, hexec, heffect⟩ := (addWritesTheSum ⟨c, d, 15#4, 0#4, k⟩).2 s hexecuted
    rw [ofInt_toInt_add_toInt, secondOperand_zero_register _ _ rfl] at heffect
    refine ⟨t, hexec, ?_, ?_⟩
    · rw [heffect.regs d, if_neg hd0, if_pos rfl]
      rfl
    · rw [heffect.regs 15#4, if_neg (by decide), if_neg hd15.symm, if_pos rfl]
  case data =>
    have haddress : addressOfAccess ⟨c, 15#4, 15#4, 0#4, k⟩ s = s.readReg 15#4 + BitVec.ofInt 32 k := by
      rw [addressOfAccess, State.readReg_zero, BitVec.add_zero]
    obtain ⟨-, -, hstores⟩ := storeWritesTheEffectiveAddress ⟨c, 15#4, 15#4, 0#4, k⟩
    obtain ⟨hwrites, -⟩ := hstores s _ hexecuted rfl
    rw [haddress] at hwrites
    obtain ⟨t, hexec, -, -, hread, -⟩ := hwrites hplain
    exact ⟨t, hexec, hread⟩

end Sys2Proof.Machine
end

section
/-! The symbolic forms and the two passes (spec/30_encoding.md R84 to R86): that a form reaches its label, and that a
label is the address of its line. -/

namespace Sys2Proof.Machine

/-! ## The symbolic forms -/

/-- R84, R85: an address moved by the distance to another is the other. -/
theorem ofNat_add_distance (here there : Nat) :
    BitVec.ofNat 32 here + BitVec.ofInt 32 ((there : Int) - here) = BitVec.ofNat 32 there := by
  rw [← BitVec.ofInt_natCast, ← BitVec.ofInt_add, add_sub_cancel, BitVec.ofInt_natCast]

/-- R78, R84, R85: a symbolic form whose label is within reach is read back from its encoding. -/
theorem decode_encode_relativeFields {ext : Bool} {op : Opcode} (hop : op.isExt = false) (c : FlagMask) (r : RegIdx)
    {here there : Nat} (hlo : -512 ≤ (there : Int) - here) (hhi : (there : Int) - here ≤ 511) :
    decode ext (encode (Instr.make op (relativeFields c r here there))) =
      .ok (Instr.make op (relativeFields c r here there)) := by
  apply decode_encode
  rw [Instr.wellFormed_iff, Instr.make_op, Instr.make_fields, Fields.offsetFits_iff]
  exact ⟨by rw [Opcode.assigned, hop, Bool.not_false, Bool.or_true], hlo, hhi⟩

section

variable {here there : Nat} {s : State}

/-- R85, R130: the address of a symbolic LOAD or STORE executed where it stands is its label. -/
theorem addressOfAccess_relativeFields (hpc : s.readReg 15#4 = BitVec.ofNat 32 here) (c : FlagMask) (r : RegIdx) :
    addressOfAccess (relativeFields c r here there) s = BitVec.ofNat 32 there := by
  have hsum : addressOfAccess (relativeFields c r here there) s =
      0#32 + s.readReg 15#4 + BitVec.ofInt 32 ((there : Int) - here) := rfl
  rw [hsum, hpc, BitVec.zero_add, ofNat_add_distance]

/-- R84, R142: the symbolic JUMP executed where it stands lands at its label. -/
theorem exec_jumpTo (hpc : s.readReg 15#4 = BitVec.ofNat 32 here) {c : FlagMask} {r : RegIdx}
    (h : Executed (relativeFields c r here there) s) :
    ∃ t, exec (jumpTo c here there) s = .next t ∧ t.readReg 15#4 = BitVec.ofNat 32 there := by
  obtain ⟨t, hexec, hlands, -⟩ := relativeJumpLands c ((there : Int) - here) s h
  rw [← add_ofInt_eq_ofInt_toNat_add, hpc, ofNat_add_distance] at hlands
  exact ⟨t, hexec, hlands⟩

end

/-- Settles O50: with the address known to be the label, what LOAD and STORE do there is O17 and O18. -/
theorem symbolicFormsReachTheirLabel : Obligations.SymbolicFormsReachTheirLabel := by
  intro c r here there s v _ hthere hlo hhi hpc hexecuted hv
  have haddress := addressOfAccess_relativeFields (there := there) hpc c r
  have htoNat : (BitVec.ofNat 32 there).toNat = there := (BitVec.toNat_ofNat _ _).trans (Nat.mod_eq_of_lt hthere)
  obtain ⟨-, -, hloads⟩ := loadReadsTheEffectiveAddress (relativeFields c r here there)
  obtain ⟨-, -, hstores⟩ := storeWritesTheEffectiveAddress (relativeFields c r here there)
  obtain ⟨hloadPlain, hloadWindow, hloadOutside⟩ := hloads s hexecuted
  obtain ⟨hstorePlain, hstoreWindow, hstoreOutside⟩ := hstores s v hexecuted (hpc ▸ hv)
  rw [haddress] at hloadPlain hloadWindow hloadOutside hstorePlain hstoreWindow hstoreOutside
  rw [htoNat] at hloadPlain hloadOutside hstorePlain hstoreOutside
  refine ⟨decode_encode_relativeFields (op := .add) rfl c pcIdx hlo hhi,
    decode_encode_relativeFields (op := .load) rfl c r hlo hhi,
    decode_encode_relativeFields (op := .store) rfl c r hlo hhi, exec_jumpTo hpc hexecuted, haddress, haddress,
    fun hplain => ?plain, fun hwindow => ?window, fun hout => ?outside⟩
  case plain =>
    obtain ⟨t, hload, hregs, -⟩ := hloadPlain hplain
    obtain ⟨u, hstore, -, -, hread, hothers, -⟩ := hstorePlain hplain
    exact ⟨⟨t, hload, hregs⟩, u, hstore, hread, hothers⟩
  case window =>
    obtain ⟨t, w, hload, hregs, hloadLog, -⟩ := hloadWindow hwindow
    obtain ⟨u, hstore, -, -, hstoreLog, -, -, hmem, -⟩ := hstoreWindow hwindow
    exact ⟨⟨t, w, hload, hregs, hloadLog⟩, u, hstore, hmem, hstoreLog⟩
  case outside =>
    obtain ⟨left, hload, -⟩ := hloadOutside hout
    obtain ⟨left', hstore, -⟩ := hstoreOutside hout
    exact ⟨⟨left, hload⟩, left', hstore⟩

/-! ## The two passes -/

/-- R86: pass 1 counts on over the words of the lines before. -/
theorem symbolTable_append (n : Nat) (before after : List Line) :
    symbolTable n (before ++ after) = symbolTable n before ++ symbolTable (n + (before.map Line.size).sum) after := by
  induction before generalizing n with
  | nil => rfl
  | cons l ls ih =>
    rw [List.cons_append, List.map_cons, List.sum_cons, ← Nat.add_assoc, symbolTable, symbolTable, ih]
    cases l.label <;> rfl

/-- R86: so does pass 2. -/
theorem emitLines_append (table : List (String × Nat)) (n : Nat) (before after : List Line) :
    emitLines table n (before ++ after) =
      emitLines table n before ++ emitLines table (n + (before.map Line.size).sum) after := by
  induction before generalizing n with
  | nil => rfl
  | cons l ls ih =>
    rw [List.cons_append, List.map_cons, List.sum_cons, ← Nat.add_assoc, emitLines, emitLines, ih]
    cases emitWord table n l.body <;> rfl

/-- R86: every name in the table is the label of a line. -/
theorem exists_label_of_mem_symbolTable {n : Nat} {ls : List Line} {e : String × Nat} (h : e ∈ symbolTable n ls) :
    ∃ l ∈ ls, l.label = some e.1 := by
  induction ls generalizing n with
  | nil => cases h
  | cons l ls ih =>
    rw [symbolTable] at h
    cases hlabel : l.label with
    | none =>
      rw [hlabel] at h
      obtain ⟨k, hk, hname⟩ := ih h
      exact ⟨k, List.mem_cons_of_mem l hk, hname⟩
    | some name =>
      rw [hlabel] at h
      obtain rfl | h := List.mem_cons.mp h
      · exact ⟨l, List.mem_cons_self, hlabel⟩
      · obtain ⟨k, hk, hname⟩ := ih h
        exact ⟨k, List.mem_cons_of_mem l hk, hname⟩

/-- R84, R85: names that no line before carries are looked up in the rest of the table. -/
theorem addressOf_append {first : List (String × Nat)} {symbol : String} (h : ∀ e ∈ first, e.1 ≠ symbol)
    (rest : List (String × Nat)) : addressOf (first ++ rest) symbol = addressOf rest symbol := by
  have hnone : first.find? (fun e => e.1 == symbol) = none :=
    List.find?_eq_none.mpr fun e he => by simpa using h e he
  rw [addressOf, List.find?_append, hnone, Option.none_or, addressOf]

/-- R86: the table of a list of lines begins with the label of the first. -/
theorem symbolTable_cons_of_label {l : Line} {name : String} (h : l.label = some name) (n : Nat) (ls : List Line) :
    symbolTable n (l :: ls) = (name, n) :: symbolTable (n + l.size) ls := by
  rw [symbolTable, h]

/-- R86: the words of a list of lines begin with the word of the first. -/
theorem emitLines_cons_of_emitWord {table : List (String × Nat)} {n : Nat} {l : Line} {w : Word}
    (h : emitWord table n l.body = some w) (ls : List Line) :
    emitLines table n (l :: ls) = (n, w) :: emitLines table (n + l.size) ls := by
  rw [emitLines, h]

/-- Settles O53: both passes reach the line after counting the words of the lines before it. -/
theorem labelsAgreeInBothPasses : Obligations.LabelsAgreeInBothPasses := by
  intro before after l name hlabel hfirst
  refine ⟨?pass1, fun w hw => ?pass2⟩
  case pass1 =>
    have hothers : ∀ e ∈ symbolTable 0 before, e.1 ≠ name := by
      rintro e he rfl
      obtain ⟨k, hk, hname⟩ := exists_label_of_mem_symbolTable he
      exact hfirst k hk hname
    rw [symbolTable_append, addressOf_append hothers, symbolTable_cons_of_label hlabel, Nat.zero_add]
    simp [addressOf]
  case pass2 =>
    rw [assemble, emitLines_append, Nat.zero_add, emitLines_cons_of_emitWord hw]
    exact List.mem_append_right _ List.mem_cons_self

end Sys2Proof.Machine
end

section
/-! Reading the canonical text (spec/30_encoding.md R79 to R82): the tokens that the text is written from, the lexer as
the inverse of writing tokens out, and the reader on those tokens. -/

namespace Sys2Proof.Machine

/-! ## Writing tokens out, and the lexer -/

/-- A token as it stands on a line. -/
def Token.chars : Token → List Char
  | .word w => w
  | .mark c => [c]
  | .gap => [' ']

/-- A word that the lexer can find: not empty, of word characters alone. -/
def IsWordText (w : List Char) : Prop := w ≠ [] ∧ w.all isWordChar = true

/-- A list of tokens that can be told apart when written out: every token is of its kind, and no word follows a word. -/
def Legible : List Token → Prop
  | [] => True
  | .word w :: ts => IsWordText w ∧ (∀ v us, ts ≠ .word v :: us) ∧ Legible ts
  | .mark c :: ts => isMark c = true ∧ Legible ts
  | .gap :: ts => Legible ts

/-- The characters that end a line are no word characters. -/
theorem isCommentStart_of_isWordChar {c : Char} (h : isWordChar c = true) : isCommentStart c = false := by
  refine Bool.eq_false_iff.mpr fun hcomment => ?_
  simp only [isCommentStart, Bool.or_eq_true, beq_iff_eq] at hcomment
  obtain rfl | rfl := hcomment <;> revert h <;> decide

/-- Punctuation neither ends a line nor stands in a word. -/
theorem not_comment_not_word_of_isMark {c : Char} (h : isMark c = true) :
    isCommentStart c = false ∧ isWordChar c = false := by
  simp only [isMark, Bool.or_eq_true, beq_iff_eq] at h
  obtain ((((rfl | rfl) | rfl) | rfl) | rfl) | rfl := h <;> decide

/-- A letter before anything but a word is a word of its own. -/
theorem consLetter_of_not_word {c : Char} {ts : List Token} (h : ∀ v us, ts ≠ .word v :: us) :
    consLetter c ts = .word [c] :: ts := by
  unfold consLetter
  split
  case h_1 w us => exact absurd rfl (h w us)
  case h_2 => rfl

theorem lex_cons_wordChar {c : Char} (h : isWordChar c = true) (cs : List Char) :
    lex (c :: cs) = (lex cs).map (consLetter c) := by
  simp [lex, isCommentStart_of_isWordChar h, h]

theorem lex_cons_mark {c : Char} (h : isMark c = true) (cs : List Char) :
    lex (c :: cs) = (lex cs).map (Token.mark c :: ·) := by
  obtain ⟨hcomment, hword⟩ := not_comment_not_word_of_isMark h
  simp [lex, hcomment, hword, h]

theorem lex_cons_blank (cs : List Char) : lex (' ' :: cs) = (lex cs).map (Token.gap :: ·) := by
  have hcomment : isCommentStart ' ' = false := by decide
  have hword : isWordChar ' ' = false := by decide
  have hmark : isMark ' ' = false := by decide
  have hblank : isBlank ' ' = true := by decide
  simp [lex, hcomment, hword, hmark, hblank]

/-- The lexer takes a whole word, if no word follows it. -/
theorem lex_word_append {w cs : List Char} {ts : List Token} (hw : IsWordText w) (hts : ∀ v us, ts ≠ .word v :: us)
    (hlex : lex cs = some ts) : lex (w ++ cs) = some (.word w :: ts) := by
  obtain ⟨hne, hchars⟩ := hw
  induction w with
  | nil => exact absurd rfl hne
  | cons c w ih =>
    rw [List.all_cons, Bool.and_eq_true] at hchars
    rw [List.cons_append, lex_cons_wordChar hchars.1]
    cases w with
    | nil => rw [List.nil_append, hlex, Option.map_some, consLetter_of_not_word hts]
    | cons d w =>
      rw [ih (List.cons_ne_nil d w) hchars.2]
      rfl

/-- The lexer is the inverse of writing legible tokens out. -/
theorem lex_flatMap_chars {ts : List Token} (h : Legible ts) : lex (ts.flatMap Token.chars) = some ts := by
  induction ts with
  | nil => rfl
  | cons t ts ih =>
    rw [List.flatMap_cons]
    cases t with
    | word w =>
      obtain ⟨hw, hts, hlegible⟩ := h
      exact lex_word_append hw hts (ih hlegible)
    | mark c =>
      obtain ⟨hc, hlegible⟩ := h
      exact (lex_cons_mark hc _).trans (congrArg (Option.map _) (ih hlegible))
    | gap => exact (lex_cons_blank _).trans (congrArg (Option.map _) (ih h))

/-! ## Decimal numerals -/

/-- R79: a natural number in decimal. -/
def decimal (n : Nat) : List Char := (Nat.repr n).toList

theorem isDigit_of_mem_decimal {n : Nat} {c : Char} (h : c ∈ decimal n) : c.isDigit = true := by
  rw [decimal, Nat.toList_repr] at h
  exact Nat.isDigit_of_mem_toDigits (by decide) (by decide) h

theorem decimal_ne_nil (n : Nat) : decimal n ≠ [] := by
  rw [decimal, Nat.toList_repr]
  exact Nat.toDigits_ne_nil

theorem isWordText_decimal (n : Nat) : IsWordText (decimal n) := by
  refine ⟨decimal_ne_nil n, List.all_eq_true.mpr fun c hc => ?_⟩
  rw [isWordChar, Char.isAlphanum, isDigit_of_mem_decimal hc, Bool.or_true, Bool.true_or]

/-- The value of a decimal digit, and that it is one. -/
theorem digitValue_of_isDigit {c : Char} (h : c.isDigit = true) :
    digitValue c = some (c.toNat - '0'.toNat) ∧ c.toNat - '0'.toNat < 10 := by
  rw [Char.isDigit_iff_toNat] at h
  have hnine : '9'.toNat = '0'.toNat + 9 := rfl
  exact ⟨if_pos h, by omega⟩

/-- A run of decimal digits has the value that the library gives it. -/
theorem numeral_of_isDigit {cs : List Char} (h : ∀ c ∈ cs, c.isDigit = true) (acc : Nat) :
    numeral 10 acc cs = some (Nat.ofDigitChars 10 cs acc) := by
  induction cs generalizing acc with
  | nil => rw [numeral, Nat.ofDigitChars_nil]
  | cons c cs ih =>
    obtain ⟨hvalue, hlt⟩ := digitValue_of_isDigit (h c List.mem_cons_self)
    simp only [numeral, hvalue]
    rw [if_pos hlt, ih fun d hd => h d (List.mem_cons_of_mem c hd), Nat.ofDigitChars_cons, Nat.mul_comm]

/-- R81: a decimal numeral reads back as its number. -/
theorem readDecimal_decimal (n : Nat) : readDecimal (decimal n) = some n := by
  rw [readDecimal, if_neg (decimal_ne_nil n), numeral_of_isDigit fun c => isDigit_of_mem_decimal, decimal,
    Nat.toList_repr, Nat.ofDigitChars_ten_toDigits]

/-! ## Opcodes, registers and predicates -/

/-- A search finds the one element of a list that passes its test. -/
theorem find?_eq_some_of_unique {α : Type} {p : α → Bool} {l : List α} {a : α} (ha : a ∈ l) (hp : p a = true)
    (hunique : ∀ b ∈ l, p b = true → b = a) : l.find? p = some a := by
  cases hfind : l.find? p with
  | none => exact absurd hp (List.find?_eq_none.mp hfind a ha)
  | some b => rw [hunique b (List.mem_of_find?_eq_some hfind) (List.find?_some hfind)]

theorem mem_opcodes (op : Opcode) : op ∈ opcodes := by
  cases op <;> decide

/-- R72: no two opcodes share a mnemonic. -/
theorem mnemonic_injective {op op' : Opcode} (h : mnemonic op = mnemonic op') : op = op' := by
  have hnodup : (opcodes.map mnemonic).Nodup := by decide
  exact List.inj_on_of_nodup_map hnodup (mem_opcodes op) (mem_opcodes op') h

theorem isWordText_mnemonic (op : Opcode) : IsWordText (mnemonic op).toList := by
  cases op <;> exact ⟨by decide, by decide⟩

/-- R72, R80: a mnemonic names its opcode where the setting has it. -/
theorem readOpcode_mnemonic {ext : Bool} {op : Opcode} (h : op.assigned ext = true) :
    readOpcode ext (mnemonic op).toList = some op := by
  refine find?_eq_some_of_unique (mem_opcodes op) ?_ fun op' _ hop' => ?_
  · rw [h, Bool.true_and, beq_self_eq_true]
  · rw [Bool.and_eq_true, beq_iff_eq, String.toList_inj] at hop'
    exact mnemonic_injective hop'.2

theorem mem_registers (r : RegIdx) : r ∈ registers := by
  revert r
  decide

/-- R21: no two registers share a name. -/
theorem regName_injective {r r' : RegIdx} (h : regName r = regName r') : r = r' := by
  rw [regName, regName, String.append_right_inj, Nat.repr_inj] at h
  exact BitVec.eq_of_toNat_eq h

theorem isWordText_regName (r : RegIdx) : IsWordText (regName r).toList := by
  have hchars : (regName r).toList = 'r' :: decimal r.toNat := by simp [regName, decimal]
  rw [hchars]
  exact ⟨List.cons_ne_nil _ _, by rw [List.all_cons, (isWordText_decimal _).2]; rfl⟩

/-- R21: a register's name names it. -/
theorem readRegister_regName (r : RegIdx) : readRegister (regName r).toList = some r := by
  refine find?_eq_some_of_unique (mem_registers r) (beq_self_eq_true _) fun r' _ hr' => ?_
  rw [beq_iff_eq, String.toList_inj] at hr'
  exact regName_injective hr'

/-- R82: the letters of a mask, as characters. -/
def predChars (c : FlagMask) : List Char :=
  (if c.getLsbD 0 then ['M'] else []) ++ (if c.getLsbD 1 then ['Z'] else []) ++
    (if c.getLsbD 2 then ['P'] else []) ++ (if c.getLsbD 3 then ['V'] else [])

theorem predLetters_toList (c : FlagMask) : (predLetters c).toList = predChars c := by
  simp [predLetters, predChars, apply_ite String.toList]

/-- R82: the union of the flags that the letters name is the mask. -/
theorem maskOfLetters_predChars (c : FlagMask) : maskOfLetters (predChars c) = some c := by
  revert c
  decide

/-- R82: four letters at most, fewer than NEVER and ALWAYS have. -/
theorem length_predChars_le (c : FlagMask) : (predChars c).length ≤ 4 := by
  revert c
  decide

/-- R82: a predicate other than ALWAYS, as a word. -/
def predWord (c : FlagMask) : List Char := if c = 0#4 then "NEVER".toList else predChars c

theorem isWordText_predWord (c : FlagMask) : IsWordText (predWord c) := by
  have hnonempty : ∀ c : FlagMask, c ≠ 0#4 → predChars c ≠ [] := by decide
  have hchars : ∀ c : FlagMask, (predChars c).all isWordChar = true := by decide
  unfold predWord
  split
  case isTrue => exact ⟨by decide, rfl⟩
  case isFalse h => exact ⟨hnonempty c h, hchars c⟩

/-- R82: the word of a mask names it. -/
theorem readPredicate_predWord (c : FlagMask) : readPredicate (predWord c) = some c := by
  have halways : "ALWAYS".toList.length = 6 := rfl
  have hnever : "NEVER".toList.length = 5 := rfl
  have hlength := length_predChars_le c
  unfold predWord
  split
  case isTrue h => rw [h]; rfl
  case isFalse =>
    rw [readPredicate, if_neg fun h => by rw [h] at hlength; omega, if_neg fun h => by rw [h] at hlength; omega,
      maskOfLetters_predChars]

/-! ## The tokens of the canonical text -/

/-- R79, R82: what follows the mnemonic. -/
def predTokens (c : FlagMask) : List Token := if c = 15#4 then [] else [.mark '/', .word (predWord c)]

/-- R79: an offset. -/
def offsetTokens (k : Int) : List Token :=
  if k < 0 then [.mark '-', .word (decimal k.natAbs)] else [.word (decimal k.natAbs)]

/-- R79: `rT,rA,rB[off]`. -/
def operandTokens (f : Fields) : List Token :=
  .word (regName f.target).toList :: .mark ',' :: .word (regName f.src1).toList :: .mark ',' ::
    .word (regName f.src2).toList :: .mark '[' :: (offsetTokens f.offset ++ [.mark ']'])

/-- R79: the canonical text, with its one space. -/
def canonicalTokens (i : Instr) : List Token :=
  .word (mnemonic i.op).toList :: (predTokens i.fields.cond ++ .gap :: operandTokens i.fields)

theorem flatMap_predTokens (c : FlagMask) : (predTokens c).flatMap Token.chars = (predSuffix c).toList := by
  unfold predTokens predSuffix predWord
  split_ifs <;> simp [Token.chars, predLetters_toList]

theorem flatMap_offsetTokens (k : Int) : (offsetTokens k).flatMap Token.chars = (offsetText k).toList := by
  unfold offsetTokens offsetText decimal
  split_ifs <;> simp [Token.chars]

/-- R79: the canonical text is its tokens, written out. -/
theorem canonicalText_eq_flatMap (i : Instr) : (canonicalText i).toList = (canonicalTokens i).flatMap Token.chars := by
  simp [canonicalText, canonicalTokens, operandTokens, flatMap_predTokens, flatMap_offsetTokens, Token.chars]

theorem legible_operandTokens (f : Fields) : Legible (operandTokens f) := by
  have hmarks : isMark ',' = true ∧ isMark '[' = true ∧ isMark '-' = true ∧ isMark ']' = true := by decide
  unfold operandTokens offsetTokens
  split <;> simp [Legible, hmarks, isWordText_regName, isWordText_decimal]

theorem legible_canonicalTokens (i : Instr) : Legible (canonicalTokens i) := by
  have hslash : isMark '/' = true := by decide
  unfold canonicalTokens predTokens
  split
  case isTrue => simp [Legible, isWordText_mnemonic, legible_operandTokens]
  case isFalse => simp [Legible, hslash, isWordText_mnemonic, isWordText_predWord, legible_operandTokens]

/-- The one gap is dropped before the line is read. -/
theorem filter_canonicalTokens (i : Instr) :
    (canonicalTokens i).filter (· ≠ Token.gap) =
      .word (mnemonic i.op).toList :: (predTokens i.fields.cond ++ operandTokens i.fields) := by
  unfold canonicalTokens predTokens operandTokens offsetTokens
  split_ifs <;> simp

/-! ## The reader on those tokens -/

/-- R81: the offset in its brackets. -/
theorem readOffset_offsetTokens (k : Int) : readOffset (.mark '[' :: (offsetTokens k ++ [.mark ']'])) = some k := by
  unfold offsetTokens
  split
  case isTrue hneg => simp [readOffset, readDecimal_decimal, abs_of_neg hneg]
  case isFalse hpos => simp [readOffset, readDecimal_decimal, abs_of_nonneg (not_lt.mp hpos)]

/-- R81: the operands. -/
theorem readOperands_operandTokens (op : Opcode) (f : Fields) :
    readOperands op f.cond (operandTokens f) = some (.full (Instr.make op f)) := by
  simp only [operandTokens, readOperands, readRegister_regName, readOffset_offsetTokens]

/-- R81, R82: the predicate, and ALWAYS where none is written. -/
theorem takePredicate_predTokens (c : FlagMask) (f : Fields) :
    takePredicate (predTokens c ++ operandTokens f) = some (c, operandTokens f) := by
  unfold predTokens
  split
  case isTrue h => rw [h]; rfl
  case isFalse => simp [takePredicate, readPredicate_predWord]

/-- R81: the first of the line-grammars takes the canonical form. -/
theorem readFull_canonical {ext : Bool} {i : Instr} (h : i.op.assigned ext = true) :
    readFull ext (.word (mnemonic i.op).toList :: (predTokens i.fields.cond ++ operandTokens i.fields)) =
      some (.full i) := by
  simp only [readFull, readOpcode_mnemonic h, takePredicate_predTokens, readOperands_operandTokens,
    Instr.make_op_fields]

/-- R80: a line whose second token is no colon has no label. -/
theorem readTokens_canonical (ext : Bool) (i : Instr) (w : List Char) :
    readTokens ext (.word w :: (predTokens i.fields.cond ++ operandTokens i.fields)) =
      (readBody ext (.word w :: (predTokens i.fields.cond ++ operandTokens i.fields))).map fun b => ⟨none, b⟩ := by
  unfold predTokens operandTokens
  split <;> rfl

/-- Settles O54: the text lexes to its tokens, and the first line-grammar reads them. -/
theorem canonicalTextIsRead : Obligations.CanonicalTextIsRead := by
  intro ext i hwf
  obtain ⟨hassigned, -⟩ := (Instr.wellFormed_iff ext i).mp hwf
  have hlex : lex (canonicalText i).toList = some (canonicalTokens i) := by
    rw [canonicalText_eq_flatMap, lex_flatMap_chars (legible_canonicalTokens i)]
  simp only [readLine, hlex, filter_canonicalTokens, readTokens_canonical, readBody, readFull_canonical hassigned,
    Option.map_some]

end Sys2Proof.Machine
end
